-- ==== Sys2Proof/Word.lean ====
section
/-! DEFINITION. The widths of 00_scope.md R3 and 20_memory.md R39, and the cut of R12. -/

namespace Sys2Proof

/-- R3: every register, operand, result and bus byte is 8 bits, read as unsigned. -/
abbrev Byte := BitVec 8

/-- R39: an offset of the host register space. -/
abbrev Offset := BitVec 4

/-- R39: a bus device identifier. -/
abbrev DeviceId := BitVec 7

/-- R28: the 16-bit EEPROM address operand. -/
abbrev EeAddr := BitVec 16

/-- R51: the 15-bit nominal EEPROM address. -/
abbrev EeCell := BitVec 15

/-- R59: a host access word. -/
abbrev AccessWord := BitVec 16

/-- R12: `trunc8(v) = v mod 256`. -/
def trunc8 (n : Nat) : Byte := BitVec.ofNat 8 n

end Sys2Proof
end

