-- ==== Sys2Proof/Syntax.lean ====
section
/-! DEFINITION. The commands (30_encoding.md R56), the host accesses and their notation (R59, R60), the register names
(10_state.md R15), the bus primitives and events (00_scope.md R13). -/

namespace Sys2Proof

/-- R56: the seven commands. A command byte has no operand field (R55). -/
inductive Instr where
  | nop | enc | dec | rtcw | rtcr | eew | eer
  deriving DecidableEq, Repr

/-- R15: the twelve data registers of the host port. -/
inductive Reg where
  | din | dout | tSec | tMin | tHour | tDow | tDom | tMon | tYear | eeAddrH | eeAddrL | eeData
  deriving DecidableEq, Repr

/-- R15: what stands at an offset of the host port. -/
inductive Port where
  | cmd
  | status
  | data (r : Reg)
  | reservedE
  | reservedF
  deriving DecidableEq, Repr

/-- R40: one host access: one byte at one offset. -/
inductive HostAccess where
  | read (o : Offset)
  | write (o : Offset) (v : Byte)
  deriving DecidableEq, Repr

/-- R60: what a host program is made of: straight-line accesses around `wait` loops. -/
inductive HostOp where
  | access (a : HostAccess)
  | wait
  deriving DecidableEq, Repr

/-- R60: the statements of the host assembly syntax. -/
inductive Stmt where
  | wr (p : Port) (v : Byte)
  | rd (p : Port)
  | cmd (i : Instr)
  | wait
  | op (i : Instr)
  deriving DecidableEq, Repr

/-- R31: the commands the sequencer runs. -/
inductive SeqOp where
  | rtcw | rtcr | eew | eer
  deriving DecidableEq, Repr

/-- R13: the calls of the bus-master port. -/
inductive BusCall where
  | beginTxn (id : DeviceId)
  | write (b : Byte)
  | endTxn
  | request (id : DeviceId) (n : Nat)
  | avail
  | read
  | settle
  deriving DecidableEq, Repr

/-- R13: the event each call appends to the bus trace, with the environment's answer where the call returns one. -/
inductive BusEvent where
  | beginTxn (id : DeviceId)
  | wr (b : Byte)
  | endTxn
  | req (id : DeviceId) (n : Nat)
  | avail (r : Bool)
  | rd (b : Byte)
  | settle
  deriving DecidableEq, Repr

/-- R105: the errors that end a command. (A dropped write, BusyViolation, ends none.) -/
inductive CommandError where
  | rangeError | noData | illegalCommand
  deriving DecidableEq, Repr

/-- R40, R99, R119: who makes the next indivisible step: the host, the sequencer, or the reset input. -/
inductive Turn where
  | host | sequencer | reset
  deriving DecidableEq, Repr, Inhabited

end Sys2Proof
end

