-- ==== Sys2Proof/Config.lean ====
section
/-! DEFINITION. Build parameters (00_scope.md R8 to R10, 20_memory.md R40) and the free values: opaque constants without a
body, applied to a counter of the state. No claim can rest on a value of one. -/

namespace Sys2Proof

/-- R9: which function ENC_OVF is. `truncated` is the spec's default; `other` is an unknown one (93 U1). -/
inductive EncOvf where
  | truncated
  | other
  deriving DecidableEq, Repr

/-- R8, R9: the build parameters a run is made under. No step changes them. -/
structure Params where
  checkRange : Bool
  encOvf : EncOvf
  deriving DecidableEq, Repr

/-- R9: an ENC_OVF the spec does not name (assumption log 4). -/
opaque Config.encOvfOther : Byte → Byte

/-- R10: one less than T_WR, whose value is OPEN (assumption log 5). -/
opaque Config.settleBase : Nat

/-- R10: T_WR, "a positive duration". -/
def Config.tWr : Nat := Config.settleBase + 1

/-- R13: by how much a settle hold outlasts T_WR (assumption log 5). -/
opaque Config.settleSlack : Nat → Nat

/-- R40: NPSC_BASE, OPEN; no rule of the block reads it. -/
opaque Config.npscBase : Nat

/-- R13, 93 U14: an answer of `BusAvail`. -/
opaque Config.availDraw : Nat → Bool

/-- R13, 93 U14: an answer of `BusRead`. -/
opaque Config.readDraw : Nat → Byte

/-- R40, R99: the agent that moves while a command runs, where nothing in the state says (assumption log 6). -/
opaque Config.turnDraw : Nat → Turn

/-- R51, 93 U4, U12, U19: the bytes of the EEPROM that a transaction without a specified effect changes. -/
opaque Config.eeWrites : Nat → List (EeCell × Byte)

/-- R51, 93 U4, U12: the EEPROM pointer after such a transaction. -/
opaque Config.eePointer : Nat → EeCell

/-- 93 U4, U11, U12: the write, if any, that an EEPROM in an unspecified state is still committing. -/
opaque Config.eeCycle : Nat → Option (EeCell × Byte)

/-- 93 U11, U12: bytes queued by a device in an unspecified state. -/
opaque Config.queueDraw : Nat → List Byte

/-- R120, 93 U11: an RTC register after a reset in the middle of RTCW. -/
opaque Config.abandonedRtc : Nat → Nat → Byte

/-- 93 U11: the RTC pointer after an abandoned transaction. -/
opaque Config.abandonedPointer : Nat → Byte

/-- R120, 93 U11, U27: the transaction the bus primitive holds open where one was left without its END. -/
opaque Config.openDraw : Nat → Option (DeviceId × List Byte)

/-- 93 U27: whether a BEGIN ends the transaction that was left open, at its device. -/
opaque Config.beginEnds : Nat → Bool

/-- R120, 93 U11: whether an EEPROM whose transaction was abandoned is in a write cycle. -/
opaque Config.abandonedInCycle : Nat → Bool

/-- R120: whether an EEPROM byte whose write was abandoned holds the new value. -/
opaque Config.abandonedIsNew : Nat → Bool

end Sys2Proof
end

