-- ==== Sys2Proof/WellFormed.lean ====
section
/-! DEFINITION. Which words and statements are well-formed (30_encoding.md R57, R59, R60). -/

namespace Sys2Proof

/-- R55: a command has no operand field, so every command is well-formed. -/
def Instr.wellFormed : Instr → Bool
  | .nop | .enc | .dec | .rtcw | .rtcr | .eew | .eer => true

/-- R57: a byte is a command, or illegal. -/
def commandByteWellFormed (b : Byte) : Bool :=
  b == 0x00 || b == 0x10 || b == 0x11 || b == 0x20 || b == 0x21 || b == 0x30 || b == 0x31

/-- R59: bits 14:12 are zero, and a read word (bit 15 clear) has bits 7:0 zero. -/
def accessWordWellFormed (w : AccessWord) : Bool :=
  w.extractLsb' 12 3 == 0#3 && (w.getLsbD 15 || w.extractLsb' 0 8 == 0#8)

/-- R60: NAME is a register name of R15; the two reserved offsets have none. -/
def Port.named : Port → Bool
  | .cmd | .status | .data _ => true
  | .reservedE | .reservedF => false

/-- R60: a statement names a register or a command. -/
def Stmt.wellFormed : Stmt → Bool
  | .wr p _ => p.named
  | .rd p => p.named
  | .cmd i => i.wellFormed
  | .wait => true
  | .op i => i.wellFormed

/-- R60: the bytes that one `wait` read: bit 0 (BUSY) is 1 in all of them but the last, where it is 0. Their number is the
length of the wait, which the run fixes. -/
def waitReadsWellFormed : List Byte → Bool
  | [] => false
  | [b] => !b.getLsbD 0
  | b :: c :: bs => b.getLsbD 0 && waitReadsWellFormed (c :: bs)

end Sys2Proof
end

