-- ==== Sys2Proof/Decode.lean ====
section
/-! DEFINITION. Decoding and encoding of command bytes (30_encoding.md R55 to R58), of the host port's offsets
(10_state.md R15), of host access words and of assembler statements (R59, R60). -/

namespace Sys2Proof

/-- Why a byte or a word is refused. -/
inductive DecodeError where
  /-- R57: not one of the seven command bytes. Who: `decode`; the machine sets ERR_ILL (R102). -/
  | illegalCommand (b : Byte)
  /-- R59: bits 14:12 are not zero. -/
  | reservedBits (w : AccessWord)
  /-- R59: a read word with data. -/
  | readWithData (w : AccessWord)
  deriving DecidableEq, Repr

/-- One row of spec/opcode_table.json. -/
structure OpcodeRow where
  pattern : Byte
  mask : Byte
  instr : Instr
  deriving DecidableEq, Repr

/-- spec/opcode_table.json, R56: all eight bits are matched. -/
def opcodeTable : List OpcodeRow :=
  [⟨0x00, 0xFF, .nop⟩, ⟨0x10, 0xFF, .enc⟩, ⟨0x11, 0xFF, .dec⟩, ⟨0x20, 0xFF, .rtcw⟩, ⟨0x21, 0xFF, .rtcr⟩,
   ⟨0x30, 0xFF, .eew⟩, ⟨0x31, 0xFF, .eer⟩]

/-- Whether a byte matches a row. -/
def OpcodeRow.accepts (r : OpcodeRow) (b : Byte) : Bool := (b &&& r.mask) == r.pattern

/-- R57: the decoder, total over all 256 bytes. -/
def decode (b : Byte) : Except DecodeError Instr :=
  match opcodeTable.find? (fun r => r.accepts b) with
  | some r => .ok r.instr
  | none => .error (.illegalCommand b)

/-- R55: `OPC[7:4]`, the group. -/
def opcGroup : Instr → BitVec 4
  | .nop => 0
  | .enc | .dec => 1
  | .rtcw | .rtcr => 2
  | .eew | .eer => 3

/-- R55: `OPC[3:0]`, the function within the group. -/
def opcFunction : Instr → BitVec 4
  | .nop | .enc | .rtcw | .eew => 0
  | .dec | .rtcr | .eer => 1

/-- R55, R56: the command byte. -/
def encode (i : Instr) : Byte := opcGroup i ++ opcFunction i

/-- The instruction the decoder reads from a table word: a command is one byte (R58). -/
def decodeTableWord (nbits w : Nat) : Option Instr :=
  if nbits = 8 ∧ w < 256 then (decode (BitVec.ofNat 8 w)).toOption else none

/-- R15: the register map. -/
def portOf (o : Offset) : Port :=
  match o.toNat with
  | 0x0 => .cmd
  | 0x1 => .status
  | 0x2 => .data .din
  | 0x3 => .data .dout
  | 0x4 => .data .tSec
  | 0x5 => .data .tMin
  | 0x6 => .data .tHour
  | 0x7 => .data .tDow
  | 0x8 => .data .tDom
  | 0x9 => .data .tMon
  | 0xA => .data .tYear
  | 0xB => .data .eeAddrH
  | 0xC => .data .eeAddrL
  | 0xD => .data .eeData
  | 0xE => .reservedE
  | _ => .reservedF

/-- R15: the offset of a data register. -/
def regOffset : Reg → Offset
  | .din => 0x2
  | .dout => 0x3
  | .tSec => 0x4
  | .tMin => 0x5
  | .tHour => 0x6
  | .tDow => 0x7
  | .tDom => 0x8
  | .tMon => 0x9
  | .tYear => 0xA
  | .eeAddrH => 0xB
  | .eeAddrL => 0xC
  | .eeData => 0xD

/-- R60: `off(NAME)`. -/
def portOffset : Port → Offset
  | .cmd => 0x0
  | .status => 0x1
  | .data r => regOffset r
  | .reservedE => 0xE
  | .reservedF => 0xF

/-- R59: bit 15 is the direction, bits 11:8 the offset, bits 7:0 the data. -/
def decodeAccess (w : AccessWord) : Except DecodeError HostAccess :=
  if w.extractLsb' 12 3 ≠ 0#3 then .error (.reservedBits w)
  else if w.getLsbD 15 then .ok (.write (w.extractLsb' 8 4) (w.extractLsb' 0 8))
  else if w.extractLsb' 0 8 ≠ 0#8 then .error (.readWithData w)
  else .ok (.read (w.extractLsb' 8 4))

/-- R59: the word of an access. -/
def encodeAccess : HostAccess → AccessWord
  | .read o => 0#4 ++ o ++ 0#8
  | .write o v => 0x8#4 ++ o ++ v

/-- R60: the access words of a statement in a run whose `wait` took `n` reads of STATUS (`waitReadsWellFormed`). -/
def assemble (n : Nat) : Stmt → List AccessWord
  | .wr p v => [encodeAccess (.write (portOffset p) v)]
  | .rd p => [encodeAccess (.read (portOffset p))]
  | .cmd i => [encodeAccess (.write (portOffset .cmd) (encode i))]
  | .wait => List.replicate n (encodeAccess (.read (portOffset .status)))
  | .op i => encodeAccess (.write (portOffset .cmd) (encode i)) ::
      List.replicate n (encodeAccess (.read (portOffset .status)))

/-- R60: what the host does for a statement. -/
def Stmt.hostOps : Stmt → List HostOp
  | .wr p v => [.access (.write (portOffset p) v)]
  | .rd p => [.access (.read (portOffset p))]
  | .cmd i => [.access (.write (portOffset .cmd) (encode i))]
  | .wait => [.wait]
  | .op i => [.access (.write (portOffset .cmd) (encode i)), .wait]

/-- The accesses of a list of words; the first word that is none is refused by name. -/
def decodeAccesses : List AccessWord → Except DecodeError (List HostAccess)
  | [] => .ok []
  | w :: ws =>
    match decodeAccess w with
    | .error e => .error e
    | .ok a =>
      match decodeAccesses ws with
      | .error e => .error e
      | .ok as => .ok (a :: as)

end Sys2Proof
end

