-- ==== Sys2Proof/Machine/State.lean ====
section
/-! DEFINITION. The state of the block (10_state.md), of the host that drives it and of the bus environment behind it
(00_scope.md section 4), and the state after reset (R37). -/

namespace Sys2Proof.Machine

/-- R17: the six fields of STATUS. Bits 7:6 always read 0 (R24) and are not stored. -/
structure Status where
  busy : Bool
  done : Bool
  errRange : Bool
  noData : Bool
  errIll : Bool
  errBusy : Bool
  deriving DecidableEq, Repr

/-- R15, R38: a data register: its byte, and whether the host or a command has written it since reset. -/
structure DataReg where
  val : Byte
  written : Bool
  deriving DecidableEq, Repr

/-- R15: the twelve data registers of the host port. -/
structure RegFile where
  din : DataReg
  dout : DataReg
  tSec : DataReg
  tMin : DataReg
  tHour : DataReg
  tDow : DataReg
  tDom : DataReg
  tMon : DataReg
  tYear : DataReg
  eeAddrH : DataReg
  eeAddrL : DataReg
  eeData : DataReg
  deriving DecidableEq, Repr

/-- Seven bytes in register order: a TimeRecord (R27, R77), its encoded form (R80), or RBUF (R32). -/
structure Bytes7 where
  b0 : Byte
  b1 : Byte
  b2 : Byte
  b3 : Byte
  b4 : Byte
  b5 : Byte
  b6 : Byte
  deriving DecidableEq, Repr

/-- R32: the latched operands of the running command. -/
structure Latch where
  time : Bytes7
  addr : EeAddr
  data : Byte
  deriving DecidableEq, Repr

/-- R31: the sequencer state; `k` is the index of the next bus call. -/
inductive Seq where
  | idle
  | run (op : SeqOp) (k : Nat)
  deriving DecidableEq, Repr

/-- The bytes of a device: cells at strictly rising addresses, none holding the byte an unlisted address reads as. -/
abbrev Memory := List Host.Cell

/-- R52: how a reference device answers. -/
inductive Variant where
  | normal
  | short (k : Nat)
  | absent
  deriving DecidableEq, Repr

/-- R50: the reference RTC. -/
structure RefRtc where
  mem : Memory
  ptr : Byte
  variant : Variant
  deriving DecidableEq, Repr

/-- R51: the reference EEPROM; `writeCycle` is the write that the next SETTLE completes. -/
structure RefEeprom where
  mem : Memory
  ptr : EeCell
  variant : Variant
  writeCycle : Option (EeCell × Byte)
  deriving DecidableEq, Repr

/-- R52: the reference bus: the open transaction with its bytes so far, the queue of the last REQ, and the devices. -/
structure RefBus where
  openTxn : Option (DeviceId × List Byte)
  queue : List Byte
  rtc : RefRtc
  ee : RefEeprom
  deriving DecidableEq, Repr

/-- R52, 92 D21, D30: whether answers are free draws or those of the reference bus. -/
inductive EnvKind where
  | free
  | reference
  deriving DecidableEq, Repr

/-- The bus environment. `avails` and `bytes` are answers still to come, used by the free kind before its opaque draws;
`ref` is used by the reference kind alone. -/
structure BusEnv where
  kind : EnvKind
  avails : List Bool
  bytes : List Byte
  ref : RefBus
  deriving DecidableEq, Repr

/-- What a host read returned (R93): the host's own record. -/
structure HostRead where
  offset : Offset
  value : Byte
  deriving DecidableEq, Repr

/-- Who moves while a command runs, once `script` is used up: nothing says (`free`), or the sequencer first, the eager
schedule of 95_test_vectors.md. -/
inductive SchedRule where
  | free
  | eager
  deriving DecidableEq, Repr

/-- The whole machine. The block's state is `params` to `trace`; then the bus environment; then the host's pending accesses
and its record of reads; then the interleaving; then the counter of free values. -/
structure State where
  params : Params
  status : Status
  regs : RegFile
  seq : Seq
  rbuf : Bytes7
  rcnt : Nat
  latch : Latch
  settleTimer : Nat
  trace : List BusEvent
  env : BusEnv
  program : List HostOp
  reads : List HostRead
  script : List Turn
  rule : SchedRule
  draws : Nat
  deriving DecidableEq, Repr

/-- Why the machine stops. -/
inductive Fault where
  /-- Raised by a sequencer turn whose SEQ index is past the end of the running command's frame. The invariant of Safety.lean
  rules it out, so no run reaches it. Safe: the model stops where the spec gives no behaviour. -/
  | badSequencerIndex
  deriving DecidableEq, Repr

/-- Why a meaning is refused. -/
inductive Refusal where
  /-- A command without a meaning. Raised by no arm of `exec`. Safe. -/
  | notModelled (mnemonic : String)
  deriving DecidableEq, Repr

/-- R37: every STATUS field 0. -/
def Status.zero : Status := ⟨false, false, false, false, false, false⟩

/-- R38, assumption log 1: unwritten; the byte 0x00 is the model's DESIGN CHOICE. -/
def DataReg.unwritten : DataReg := ⟨0, false⟩

/-- R37, R38: every data register unwritten. -/
def RegFile.unwritten : RegFile :=
  ⟨.unwritten, .unwritten, .unwritten, .unwritten, .unwritten, .unwritten, .unwritten, .unwritten, .unwritten,
   .unwritten, .unwritten, .unwritten⟩

/-- Seven zero bytes. -/
def Bytes7.zero : Bytes7 := ⟨0, 0, 0, 0, 0, 0, 0⟩

/-- No operands latched (DESIGN CHOICE, assumption log 2). -/
def Latch.zero : Latch := ⟨.zero, 0, 0⟩

/-- R50, R51: the reference devices before any transaction (assumption log 11). -/
def RefBus.cold : RefBus :=
  { openTxn := none, queue := [], rtc := ⟨[], 0, .normal⟩, ee := ⟨[], 0, .normal, none⟩ }

/-- R37: the machine right after reset, with the spec's default build parameters (R8, R9), a host that has nothing to do yet,
and an environment whose answers are free draws. -/
def State.reset : State :=
  { params := ⟨true, .truncated⟩
    status := .zero
    regs := .unwritten
    seq := .idle
    rbuf := .zero
    rcnt := 0
    latch := .zero
    settleTimer := 0
    trace := []
    env := ⟨.free, [], [], .cold⟩
    program := []
    reads := []
    script := []
    rule := .free
    draws := 0 }

end Sys2Proof.Machine
end

