-- ==== Sys2Proof/Machine/Memory.lean ====
section
/-! DEFINITION. The bytes of the reference devices (20_memory.md R50, R51) as lists of cells in one canonical form. -/

namespace Sys2Proof.Machine

/-- What an unlisted address reads as: the cold EEPROM's 0x00 (R51); for the RTC, which R50 gives no contents, a DESIGN
CHOICE (assumption log 11). -/
def unlistedByte : Byte := 0x00

/-- One byte of a device. -/
def readByte : Memory → Nat → Byte
  | [], _ => unlistedByte
  | (k, v) :: m, a => if a = k then v else readByte m a

/-- Storing one byte, in canonical form: the byte an unlisted address reads as is not listed. -/
def writeByte : Memory → Nat → Byte → Memory
  | [], a, v => if v = unlistedByte then [] else [(a, v)]
  | (k, w) :: m, a, v =>
    if a < k then (if v = unlistedByte then (k, w) :: m else (a, v) :: (k, w) :: m)
    else if a = k then (if v = unlistedByte then m else (k, v) :: m)
    else (k, w) :: writeByte m a v

/-- Canonical from address `lo` on: addresses strictly rising, none of them holding the unlisted byte. -/
def wfFrom : Nat → Memory → Bool
  | _, [] => true
  | lo, (k, v) :: m => decide (lo ≤ k) && decide (v ≠ unlistedByte) && wfFrom (k + 1) m

/-- The canonical form. -/
def Memory.wf (m : Memory) : Bool := wfFrom 0 m

/-- Every listed address is below `n`. -/
def Memory.below (n : Nat) (m : Memory) : Bool := m.all fun c => decide (c.1 < n)

/-- Bytes stored one after another from `p` on, with an 8-bit pointer that wraps (R50), and the pointer after them. -/
def writeBytes (m : Memory) (p : Byte) : List Byte → Memory × Byte
  | [] => (m, p)
  | b :: bs => writeBytes (writeByte m p.toNat b) (p + 1) bs

/-- `n` bytes read one after another from `p` on (R50), and the pointer after them. -/
def readBytes (m : Memory) (p : Byte) : Nat → List Byte × Byte
  | 0 => ([], p)
  | n + 1 => (readByte m p.toNat :: (readBytes m (p + 1) n).1, (readBytes m (p + 1) n).2)

/-- Bytes stored at 15-bit addresses. -/
def writeCells (m : Memory) : List (EeCell × Byte) → Memory
  | [] => m
  | (a, v) :: ws => writeCells (writeByte m a.toNat v) ws

end Sys2Proof.Machine
end

