-- ==== Sys2Proof/Machine/Flags.lean ====
section
/-! DEFINITION. STATUS: its byte, and every update the rules make of it (10_state.md R17 to R24). -/

namespace Sys2Proof.Machine

/-- R17: the STATUS byte: BUSY is bit 0, DONE 1, ERR_RANGE 2, NODATA 3, ERR_ILL 4, ERR_BUSY 5; bits 7:6 are 0 (R24). -/
def statusByte (s : Status) : Byte :=
  0#2 ++ BitVec.ofBool s.errBusy ++ BitVec.ofBool s.errIll ++ BitVec.ofBool s.noData ++ BitVec.ofBool s.errRange ++
    BitVec.ofBool s.done ++ BitVec.ofBool s.busy

/-- R96: acceptance clears DONE and the four error bits. -/
def statusAccept (s : Status) : Status :=
  { s with done := false, errRange := false, noData := false, errIll := false, errBusy := false }

/-- R96: a sequenced command that reaches its first bus call. -/
def statusStart (s : Status) : Status := { s with busy := true }

/-- R100: success completion. -/
def statusComplete (s : Status) : Status := { s with busy := false, done := true }

/-- R102, R106, R107: completion with an error. -/
def statusError (e : CommandError) (s : Status) : Status :=
  match e with
  | .rangeError => { s with busy := false, done := true, errRange := true }
  | .noData => { s with busy := false, done := true, noData := true }
  | .illegalCommand => { s with busy := false, done := true, errIll := true }

/-- R97: a dropped write. -/
def statusBusyViolation (s : Status) : Status := { s with errBusy := true }

end Sys2Proof.Machine
end

