-- ==== Sys2Proof/Machine/Operands.lean ====
section
/-! DEFINITION. The constants of the frames (00_scope.md R4 to R7), the host-port registers as operands (10_state.md R15), the
BCD functions (40_bcd_codec.md R69, R70), pack and unpack with their masks and ranges (41_rtc_register_mux.md R77 to R81), and
the EEPROM address (42_eeprom_framer.md R87, R88). -/

namespace Sys2Proof.Machine

/-- R4: the RTC's device identifier. -/
def rtcId : DeviceId := 0x68

/-- R5: the EEPROM's device identifier. -/
def eeId : DeviceId := 0x50

/-- R6: EE_SIZE. -/
def eeSize : Nat := 32768

/-- R7: RTC_NREG. -/
def rtcNreg : Nat := 7

/-- R7: RTC_BASE. -/
def rtcBase : Byte := 0x00

/-- R40: where an offset of the port stands in the host's address map. -/
def hostAddress (o : Offset) : Nat := Config.npscBase + o.toNat

/-- R15: the register of a name. -/
def regGet (f : RegFile) : Reg → DataReg
  | .din => f.din
  | .dout => f.dout
  | .tSec => f.tSec
  | .tMin => f.tMin
  | .tHour => f.tHour
  | .tDow => f.tDow
  | .tDom => f.tDom
  | .tMon => f.tMon
  | .tYear => f.tYear
  | .eeAddrH => f.eeAddrH
  | .eeAddrL => f.eeAddrL
  | .eeData => f.eeData

/-- R14: `reg[NAME] <- v`; the register is then written since reset (R38). -/
def regSet (f : RegFile) (r : Reg) (v : Byte) : RegFile :=
  match r with
  | .din => { f with din := ⟨v, true⟩ }
  | .dout => { f with dout := ⟨v, true⟩ }
  | .tSec => { f with tSec := ⟨v, true⟩ }
  | .tMin => { f with tMin := ⟨v, true⟩ }
  | .tHour => { f with tHour := ⟨v, true⟩ }
  | .tDow => { f with tDow := ⟨v, true⟩ }
  | .tDom => { f with tDom := ⟨v, true⟩ }
  | .tMon => { f with tMon := ⟨v, true⟩ }
  | .tYear => { f with tYear := ⟨v, true⟩ }
  | .eeAddrH => { f with eeAddrH := ⟨v, true⟩ }
  | .eeAddrL => { f with eeAddrL := ⟨v, true⟩ }
  | .eeData => { f with eeData := ⟨v, true⟩ }

/-- R14: the register writes of a completion, in order. -/
def regSetAll (f : RegFile) : List (Reg × Byte) → RegFile
  | [] => f
  | (r, v) :: ws => regSetAll (regSet f r v) ws

/-- R14: `reg[NAME]`. -/
def regVal (f : RegFile) (r : Reg) : Byte := (regGet f r).val

/-- R15: RW for the host; DOUT is read-only. -/
def hostWritable : Reg → Bool
  | .dout => false
  | .din | .tSec | .tMin | .tHour | .tDow | .tDom | .tMon | .tYear | .eeAddrH | .eeAddrL | .eeData => true

/-- A function of the index and the byte, applied to all seven. -/
def mapBytes7 (g : Nat → Byte → Byte) (t : Bytes7) : Bytes7 :=
  ⟨g 0 t.b0, g 1 t.b1, g 2 t.b2, g 3 t.b3, g 4 t.b4, g 5 t.b5, g 6 t.b6⟩

/-- The seven bytes, index 0 first (R44). -/
def listOfBytes7 (t : Bytes7) : List Byte := [t.b0, t.b1, t.b2, t.b3, t.b4, t.b5, t.b6]

/-- R83: `RBUF[i] <- b`. -/
def setByte7 (t : Bytes7) (i : Nat) (b : Byte) : Bytes7 :=
  match i with
  | 0 => { t with b0 := b }
  | 1 => { t with b1 := b }
  | 2 => { t with b2 := b }
  | 3 => { t with b3 := b }
  | 4 => { t with b4 := b }
  | 5 => { t with b5 := b }
  | 6 => { t with b6 := b }
  | _ => t

/-- R27, R77: `t[i] <- reg[T_REG(i)]` for all seven fields. -/
def timeRecord (f : RegFile) : Bytes7 :=
  ⟨f.tSec.val, f.tMin.val, f.tHour.val, f.tDow.val, f.tDom.val, f.tMon.val, f.tYear.val⟩

/-- R77, R83: `reg[T_REG(i)] <- t[i]` for all seven fields. -/
def timeWrites (t : Bytes7) : List (Reg × Byte) :=
  [(.tSec, t.b0), (.tMin, t.b1), (.tHour, t.b2), (.tDow, t.b3), (.tDom, t.b4), (.tMon, t.b5), (.tYear, t.b6)]

/-- R69: the encoder function, a natural number. -/
def enc (v : Byte) : Nat := ((v.toNat / 10) <<< 4) ||| (v.toNat % 10)

/-- R70: the decoder function, on naturals. -/
def decNat (v : Byte) : Nat := (v.extractLsb' 4 4).toNat * 10 + (v.extractLsb' 0 4).toNat

/-- R70: the decoder function; "always a byte, 0..165". -/
def dec (v : Byte) : Byte := trunc8 (decNat v)

/-- R61: valid BCD: both digits at most 9. -/
def validBcd (v : Byte) : Bool :=
  decide ((v.extractLsb' 4 4).toNat ≤ 9) && decide ((v.extractLsb' 0 4).toNat ≤ 9)

/-- R9: ENC_OVF under the build parameters. -/
def encOvf (p : Params) (v : Byte) : Byte :=
  match p.encOvf with
  | .truncated => trunc8 (enc v)
  | .other => Config.encOvfOther v

/-- R80: a byte's BCD encoding, by `enc` up to 99 and by ENC_OVF above. -/
def encByte (p : Params) (v : Byte) : Byte := if v.toNat ≤ 99 then trunc8 (enc v) else encOvf p v

/-- R80: `pack(t)`. -/
def pack (p : Params) (t : Bytes7) : Bytes7 := mapBytes7 (fun _ v => encByte p v) t

/-- R77, R79: `MASK(i)`. -/
def mask (i : Nat) : Byte :=
  match i with
  | 0 => 0x7F
  | 2 => 0x3F
  | _ => 0xFF

/-- R81: `unpack(b)`. -/
def unpack (b : Bytes7) : Bytes7 := mapBytes7 (fun i v => dec (v &&& mask i)) b

/-- R77: `LO(i)`. -/
def rangeLo (i : Nat) : Nat :=
  match i with
  | 4 => 1
  | 5 => 1
  | _ => 0

/-- R77: `HI(i)`. -/
def rangeHi (i : Nat) : Nat :=
  match i with
  | 0 => 59
  | 1 => 59
  | 2 => 23
  | 3 => 7
  | 4 => 31
  | 5 => 12
  | _ => 99

/-- R78: `inRange(i, v)`. -/
def inRange (i : Nat) (v : Byte) : Bool := decide (rangeLo i ≤ v.toNat) && decide (v.toNat ≤ rangeHi i)

/-- R78, R82: every field in its own range; no calendar check (92 D24). -/
def timeInRange (t : Bytes7) : Bool :=
  inRange 0 t.b0 && inRange 1 t.b1 && inRange 2 t.b2 && inRange 3 t.b3 && inRange 4 t.b4 && inRange 5 t.b5 && inRange 6 t.b6

/-- R65: `EEADDR = {reg[EEADDR_H], reg[EEADDR_L]}`. -/
def eeAddress (f : RegFile) : EeAddr := f.eeAddrH.val ++ f.eeAddrL.val

/-- R87: `eeInRange(a)`. -/
def eeInRange (a : EeAddr) : Bool := decide (a.toNat ≤ 32767)

/-- R88: `hi(a) = a[15:8]`. -/
def addrHi (a : EeAddr) : Byte := a.extractLsb' 8 8

/-- R88: `lo(a) = a[7:0]`. -/
def addrLo (a : EeAddr) : Byte := a.extractLsb' 0 8

end Sys2Proof.Machine
end

