-- ==== Sys2Proof/Machine/Devices.lean ====
section
/-! DEFINITION. The reference devices and the reference bus (20_memory.md R50 to R52), and the effect a reset in the middle
of a command has on them (70_reset_and_hazards.md R120). In each, `n` selects the free values. -/

namespace Sys2Proof.Machine

/-- R52: how many of `n` requested bytes a device queues. -/
def queued (v : Variant) (n : Nat) : Nat :=
  match v with
  | .normal => n
  | .short k => min k n
  | .absent => 0

/-- R50: a write transaction with the RTC: the first byte is the pointer, the others are stored with auto-increment. -/
def rtcTransaction (r : RefRtc) (bytes : List Byte) : RefRtc :=
  match r.variant with
  | .absent => r
  | .normal | .short _ =>
    match bytes with
    | [] => r
    | p :: bs => { r with mem := (writeBytes r.mem p bs).1, ptr := (writeBytes r.mem p bs).2 }

/-- R50, R52: `REQ(0x68, n)`. -/
def rtcRequest (r : RefRtc) (n : Nat) : List Byte × RefRtc :=
  ((readBytes r.mem r.ptr (queued r.variant n)).1, { r with ptr := (readBytes r.mem r.ptr (queued r.variant n)).2 })

/-- R51, R120, 93 U4, U11, U12, U19: an effect the spec leaves open: any bytes and the pointer may change, and where `cycle`
holds the device may be in a write cycle or not, with any write to commit (assumption logs 12 to 14). -/
def eeDisturb (n : Nat) (cycle : Bool) (e : RefEeprom) : RefEeprom :=
  { e with
    mem := writeCells e.mem (Config.eeWrites n)
    ptr := Config.eePointer n
    writeCycle := if cycle then Config.eeCycle n else none }

/-- R51: `{h[6:0], l}`. -/
def eeCellOf (h l : Byte) : EeCell := h.extractLsb' 0 7 ++ l

/-- R51: a write transaction with the EEPROM. The data byte is committed by the following SETTLE. A transaction during a
write cycle, one with `h[7] = 1`, and one of another length have an open effect; that of the two bytes of a read starts no
write cycle (93 U4: only the byte read is open). -/
def eeTransaction (n : Nat) (e : RefEeprom) (bytes : List Byte) : RefEeprom :=
  match e.variant with
  | .absent => e
  | .normal | .short _ =>
    match e.writeCycle with
    | some _ => eeDisturb n true e
    | none =>
      match bytes with
      | [h, l] => if h.getLsbD 7 then eeDisturb n false e else { e with ptr := eeCellOf h l }
      | [h, l, d] =>
        if h.getLsbD 7 then eeDisturb n true e
        else { e with ptr := eeCellOf h l, writeCycle := some (eeCellOf h l, d) }
      | _ => eeDisturb n true e

/-- R51: the write is complete when SETTLE is recorded. -/
def eeSettle (e : RefEeprom) : RefEeprom :=
  match e.writeCycle with
  | some (a, d) => { e with mem := writeByte e.mem a.toNat d, writeCycle := none }
  | none => e

/-- R51, R52: `REQ(0x50, 1)`; during a write cycle, and for another count, the queue is open. -/
def eeRequest (n : Nat) (e : RefEeprom) (cnt : Nat) : List Byte × RefEeprom :=
  match e.variant with
  | .absent => ([], e)
  | .normal | .short _ =>
    match e.writeCycle with
    | some _ => (Config.queueDraw n, eeDisturb n true e)
    | none =>
      if cnt = 1 then (List.replicate (queued e.variant 1) (readByte e.mem e.ptr.toNat), e)
      else (Config.queueDraw n, e)

/-- R52: the end of a transaction, dispatched by its identifier; other identifiers reach no device. -/
def deliver (n : Nat) (b : RefBus) (id : DeviceId) (bytes : List Byte) : RefBus :=
  if id = rtcId then { b with openTxn := none, rtc := rtcTransaction b.rtc bytes }
  else if id = eeId then { b with openTxn := none, ee := eeTransaction n b.ee bytes }
  else { b with openTxn := none }

/-- R52: a request, dispatched by its identifier; the queue is that of the last REQ. -/
def request (n : Nat) (b : RefBus) (id : DeviceId) (cnt : Nat) : RefBus :=
  if id = rtcId then { b with queue := (rtcRequest b.rtc cnt).1, rtc := (rtcRequest b.rtc cnt).2 }
  else if id = eeId then { b with queue := (eeRequest n b.ee cnt).1, ee := (eeRequest n b.ee cnt).2 }
  else { b with queue := [] }

/-- R52: the begin of a transaction. Where one is still open, left so by a reset (R120), what the primitive then does is open:
it may first end that one at its device, and holds any transaction open afterwards (93 U27, assumption log 14). -/
def beginTransaction (n : Nat) (b : RefBus) (id : DeviceId) : RefBus :=
  match b.openTxn with
  | none => { b with openTxn := some (id, []) }
  | some (old, bytes) =>
    { (if Config.beginEnds n then deliver n b old bytes else b) with
      openTxn := Config.openDraw n
      queue := Config.queueDraw n }

/-- R13, R52: one call on the reference bus: the event, with the answer, and the bus after it. DESIGN CHOICE (assumption log
24): WR and END while no transaction is open, and SETTLE while no write awaits it, are recorded and change nothing; a request,
an availability question or a read while one is open is answered as with none. -/
def refCall (n : Nat) (b : RefBus) (c : BusCall) : BusEvent × RefBus :=
  match c with
  | .beginTxn id => (.beginTxn id, beginTransaction n b id)
  | .write v =>
    match b.openTxn with
    | some (id, bytes) => (.wr v, { b with openTxn := some (id, bytes ++ [v]) })
    | none => (.wr v, b)
  | .endTxn =>
    match b.openTxn with
    | some (id, bytes) => (.endTxn, deliver n b id bytes)
    | none => (.endTxn, b)
  | .request id cnt => (.req id cnt, request n b id cnt)
  | .avail => (.avail (!b.queue.isEmpty), b)
  | .read =>
    match b.queue with
    | v :: q => (.rd v, { b with queue := q })
    | [] => (.rd (Config.readDraw n), b)
  | .settle => (.settle, { b with ee := eeSettle b.ee })

/-- R13, 92 D30: one call in the free environment: coming answers first, then free draws. -/
def freeCall (n : Nat) (e : BusEnv) (c : BusCall) : BusEvent × BusEnv :=
  match c with
  | .beginTxn id => (.beginTxn id, e)
  | .write v => (.wr v, e)
  | .endTxn => (.endTxn, e)
  | .request id cnt => (.req id cnt, e)
  | .avail =>
    match e.avails with
    | r :: rs => (.avail r, { e with avails := rs })
    | [] => (.avail (Config.availDraw n), e)
  | .read =>
    match e.bytes with
    | v :: vs => (.rd v, { e with bytes := vs })
    | [] => (.rd (Config.readDraw n), e)
  | .settle => (.settle, e)

/-- One call on the bus environment. -/
def envCall (n : Nat) (e : BusEnv) (c : BusCall) : BusEvent × BusEnv :=
  match e.kind with
  | .free => freeCall n e c
  | .reference => ((refCall n e.ref c).1, { e with ref := (refCall n e.ref c).2 })

/-- R120, 93 U11: the RTC after a reset in the middle of its transaction: after RTCW, registers 0..6 hold any bytes. -/
def rtcAbandon (n : Nat) (op : SeqOp) (r : RefRtc) : RefRtc :=
  match r.variant with
  | .absent => r
  | .normal | .short _ =>
    match op with
    | .rtcw =>
      { r with
        mem := (writeBytes r.mem 0 ((List.range 7).map (Config.abandonedRtc n))).1
        ptr := Config.abandonedPointer n }
    | .rtcr | .eew | .eer => { r with ptr := Config.abandonedPointer n }

/-- R120: one EEPROM byte that may hold the old or the new value. -/
def eeOldOrNew (n : Nat) (m : Memory) (a : EeCell) (d : Byte) : Memory :=
  if Config.abandonedIsNew n then writeByte m a.toNat d else m

/-- R120: a write that an EEPROM may still be committing. -/
def cycleOrNone (n : Nat) (a : EeCell) (d : Byte) : Option (EeCell × Byte) :=
  if Config.abandonedInCycle n then some (a, d) else none

/-- R120, 93 U11: the EEPROM after a reset in the middle of its transaction. The addressed byte is old or new after EEW and as
it was after EER; the pointer is open, and so is whether the device is in a write cycle. With bit 15 of the address set, or in
an older write cycle, all of the device is open. -/
def eeAbandon (n : Nat) (op : SeqOp) (l : Latch) (e : RefEeprom) : RefEeprom :=
  match e.variant with
  | .absent => e
  | .normal | .short _ =>
    if l.addr.getLsbD 15 || e.writeCycle.isSome then eeDisturb n true e
    else
      match op with
      | .eew =>
        { e with
          mem := eeOldOrNew n e.mem (l.addr.extractLsb' 0 15) l.data
          ptr := Config.eePointer n
          writeCycle := cycleOrNone n (l.addr.extractLsb' 0 15) l.data }
      | .rtcw | .rtcr | .eer =>
        { e with
          ptr := Config.eePointer n
          writeCycle := cycleOrNone n (l.addr.extractLsb' 0 15) (readByte e.mem (l.addr.extractLsb' 0 15).toNat) }

/-- R120: the EEPROM after a reset between END and SETTLE: the byte is old or new, and the device may still be in its write
cycle. -/
def eeAbandonSettle (n : Nat) (e : RefEeprom) : RefEeprom :=
  match e.writeCycle with
  | some (a, d) => { e with mem := eeOldOrNew n e.mem a d, writeCycle := cycleOrNone n a d }
  | none => e

/-- R63, R64, R67, R68, R120: before call `k` of `op` a transaction is begun and not yet ended. -/
def txnOpenAt (op : SeqOp) (k : Nat) : Bool :=
  match op with
  | .rtcw => decide (1 ≤ k) && decide (k ≤ 9)
  | .rtcr => decide (1 ≤ k) && decide (k ≤ 2)
  | .eew => decide (1 ≤ k) && decide (k ≤ 4)
  | .eer => decide (1 ≤ k) && decide (k ≤ 3)

/-- R67, R120: call `k` of `op` is the SETTLE after an END. -/
def settlingAt (op : SeqOp) (k : Nat) : Bool :=
  match op with
  | .eew => k == 5
  | .rtcw | .rtcr | .eer => false

/-- R120, 93 U11: the reference bus after a reset before call `k` of `op`. With a transaction open no END is sent: its device
and the primitive (the transaction it holds, its queue) are in an open state (assumption log 14). -/
def refAbandon (n : Nat) (op : SeqOp) (k : Nat) (l : Latch) (b : RefBus) : RefBus :=
  if txnOpenAt op k then
    match op with
    | .rtcw | .rtcr =>
      { b with openTxn := Config.openDraw n, queue := Config.queueDraw n, rtc := rtcAbandon n op b.rtc }
    | .eew | .eer =>
      { b with openTxn := Config.openDraw n, queue := Config.queueDraw n, ee := eeAbandon n op l b.ee }
  else if settlingAt op k then { b with ee := eeAbandonSettle n b.ee }
  else b

/-- R36, R120: what a reset does to the environment. -/
def envReset (n : Nat) (q : Seq) (l : Latch) (e : BusEnv) : BusEnv :=
  match e.kind with
  | .free => e
  | .reference =>
    match q with
    | .idle => e
    | .run op k => { e with ref := refAbandon n op k l e.ref }

end Sys2Proof.Machine
end

