-- ==== Sys2Proof/Machine/Ops.lean ====
section
/-! DEFINITION. The shared operations of the commands: acceptance (43_command_control.md R96, R97), completion (R100), ending
with an error (60_exceptions.md R106, R107, 43 R102), one bus call (00_scope.md R13), and reset (70_reset_and_hazards.md R119). -/

namespace Sys2Proof.Machine

/-- How a meaning ends. -/
abbrev Result := Host.Outcome State Fault Refusal

/-- R97: a dropped host write: its one effect is ERR_BUSY. -/
def dropWrite (s : State) : State := { s with status := statusBusyViolation s.status }

/-- R96, R97, R112: a command byte written to CMD. While BUSY it is dropped; otherwise DONE and the error bits are cleared and
the command's own part follows. -/
def accept (s : State) (command : State → Result) : Result :=
  if s.status.busy then .next (dropWrite s) else command { s with status := statusAccept s.status }

/-- R100: success completion: the result registers, STATUS and SEQ in one step. DESIGN CHOICE (assumption log 2): RBUF, RCNT, the
latched operands and the settle timer, unspecified while SEQ is idle (R32, R37), keep the command's values. -/
def complete (ws : List (Reg × Byte)) (s : State) : State :=
  { s with regs := regSetAll s.regs ws, status := statusComplete s.status, seq := .idle }

/-- R102, R106, R107: the end of a command with an error. No trap: no state is saved and nothing else changes (R108). DESIGN
CHOICE (assumption log 2): RBUF, RCNT, the latched operands and the settle timer keep the command's values. -/
def raiseError (e : CommandError) (s : State) : State :=
  { s with status := statusError e s.status, seq := .idle }

/-- R96: a sequenced command that reaches its first bus call, with its latched operands (R32). -/
def start (op : SeqOp) (l : Latch) (s : State) : State :=
  { s with status := statusStart s.status, seq := .run op 0, latch := l, rbuf := .zero, rcnt := 0 }

/-- R102: an illegal command byte. -/
def illegalCommand (s : State) : Result := accept s fun s => .next (raiseError .illegalCommand s)

/-- R13, R33: the settle timer after a call: END restarts it, and SETTLE ends a hold of at least T_WR. -/
def timerAfter (n : Nat) (t : Nat) (c : BusCall) : Nat :=
  match c with
  | .endTxn => 0
  | .settle => t + (Config.tWr + Config.settleSlack n)
  | .beginTxn _ | .write _ | .request _ _ | .avail | .read => t

/-- R13: one bus call: the environment answers, the event is appended to the trace. -/
def busCall (c : BusCall) (s : State) : BusEvent × State :=
  ((envCall s.draws s.env c).1,
   { s with
     env := (envCall s.draws s.env c).2
     trace := s.trace ++ [(envCall s.draws s.env c).1]
     settleTimer := timerAfter s.draws s.settleTimer c
     draws := s.draws + 1 })

/-- R83, R92: `RBUF[i] <- BusRead()`, and the count of bytes read (R32). -/
def storeByte (b : Byte) (s : State) : State := { s with rbuf := setByte7 s.rbuf s.rcnt b, rcnt := s.rcnt + 1 }

/-- R119, R120: reset. A running command is abandoned. The build parameters, the devices but for R120's effect, and the host
stay (R36); the trace is empty again (R37, assumption log 10). -/
def applyReset (s : State) : State :=
  { s with
    status := .zero
    regs := .unwritten
    seq := .idle
    rbuf := .zero
    rcnt := 0
    latch := .zero
    settleTimer := 0
    trace := []
    env := envReset s.draws s.seq s.latch s.env
    draws := s.draws + 1 }

end Sys2Proof.Machine
end

