-- ==== Sys2Proof/Machine/Codec.lean ====
section
/-! DEFINITION. The BCD codec's commands (40_bcd_codec.md R74, R75). -/

namespace Sys2Proof.Machine

/-- R74: BCD-encode DIN into DOUT. -/
def execEnc (s : State) : Result :=
  accept s fun s =>
    if (regVal s.regs .din).toNat ≤ 99 then .next (complete [(.dout, trunc8 (enc (regVal s.regs .din)))] s)
    else if s.params.checkRange then .next (raiseError .rangeError s)
    else .next (complete [(.dout, encOvf s.params (regVal s.regs .din))] s)

/-- R75: BCD-decode DIN into DOUT. -/
def execDec (s : State) : Result :=
  accept s fun s => .next (complete [(.dout, dec (regVal s.regs .din))] s)

end Sys2Proof.Machine
end

