-- ==== Sys2Proof/Machine/Control.lean ====
section
/-! DEFINITION. NOP (43_command_control.md R101). -/

namespace Sys2Proof.Machine

/-- R101: `NOP: complete {}`. -/
def execNop (s : State) : Result := accept s fun s => .next (complete [] s)

end Sys2Proof.Machine
end

