-- ==== Sys2Proof/Machine/Eeprom.lean ====
section
/-! DEFINITION. The EEPROM address framer (42_eeprom_framer.md R91, R92): the accepting write of EEW and EER, the frames the
sequencer then makes (30_encoding.md R67, R68), and the result register of EER. -/

namespace Sys2Proof.Machine

/-- R91, up to the first bus call. -/
def execEew (s : State) : Result :=
  accept s fun s =>
    if s.params.checkRange && !eeInRange (eeAddress s.regs) then .next (raiseError .rangeError s)
    else .next (start .eew { Latch.zero with addr := eeAddress s.regs, data := regVal s.regs .eeData } s)

/-- R92, up to the first bus call. -/
def execEer (s : State) : Result :=
  accept s fun s =>
    if s.params.checkRange && !eeInRange (eeAddress s.regs) then .next (raiseError .rangeError s)
    else .next (start .eer { Latch.zero with addr := eeAddress s.regs } s)

/-- R67, R91: the calls of EEW. -/
def eewFrame (a : EeAddr) (d : Byte) : List BusCall :=
  [.beginTxn eeId, .write (addrHi a), .write (addrLo a), .write d, .endTxn, .settle]

/-- R68, R92: the calls of EER, when the byte is available. -/
def eerFrame (a : EeAddr) : List BusCall :=
  [.beginTxn eeId, .write (addrHi a), .write (addrLo a), .endTxn, .request eeId 1, .avail, .read]

/-- R92: the register write of EER's completion. -/
def eerResults (rbuf : Bytes7) : List (Reg × Byte) := [(.eeData, rbuf.b0)]

end Sys2Proof.Machine
end

