-- ==== Sys2Proof/Machine/Rtc.lean ====
section
/-! DEFINITION. The RTC register-map multiplexer (41_rtc_register_mux.md R82, R83): the accepting write of RTCW and RTCR, the
frames the sequencer then makes (30_encoding.md R63, R64), and the result registers of RTCR. -/

namespace Sys2Proof.Machine

/-- R82, up to the first bus call: the fields are read once, and checked when CHECK_RANGE = 1. -/
def execRtcw (s : State) : Result :=
  accept s fun s =>
    if s.params.checkRange && !timeInRange (timeRecord s.regs) then .next (raiseError .rangeError s)
    else .next (start .rtcw { Latch.zero with time := timeRecord s.regs } s)

/-- R83, up to the first bus call: no operand, no check. -/
def execRtcr (s : State) : Result := accept s fun s => .next (start .rtcr .zero s)

/-- R63, R82: the calls of RTCW. -/
def rtcwFrame (p : Params) (t : Bytes7) : List BusCall :=
  [.beginTxn rtcId, .write rtcBase] ++ (listOfBytes7 (pack p t)).map .write ++ [.endTxn]

/-- R64, R83: the calls of RTCR, when every byte is available. -/
def rtcrFrame : List BusCall :=
  [.beginTxn rtcId, .write rtcBase, .endTxn, .request rtcId rtcNreg] ++
    [.avail, .read, .avail, .read, .avail, .read, .avail, .read, .avail, .read, .avail, .read, .avail, .read]

/-- R83: the register writes of RTCR's completion. -/
def rtcrResults (rbuf : Bytes7) : List (Reg × Byte) := timeWrites (unpack rbuf)

end Sys2Proof.Machine
end

