-- ==== Sys2Proof/Machine/Dispatch.lean ====
section
/-! DEFINITION. One arm per command: the effect of the host write of its byte to CMD (43_command_control.md R96). -/

namespace Sys2Proof.Machine

def exec (i : Instr) (s : State) : Host.Outcome State Fault Refusal :=
  match i with
  | .nop => Sys2Proof.Machine.execNop s
  | .enc => Sys2Proof.Machine.execEnc s
  | .dec => Sys2Proof.Machine.execDec s
  | .rtcw => Sys2Proof.Machine.execRtcw s
  | .rtcr => Sys2Proof.Machine.execRtcr s
  | .eew => Sys2Proof.Machine.execEew s
  | .eer => Sys2Proof.Machine.execEer s

end Sys2Proof.Machine
end

