-- ==== Sys2Proof/Machine/HostPort.lean ====
section
/-! DEFINITION. Host accesses (43_command_control.md R93 to R97). -/

namespace Sys2Proof.Machine

/-- R93, R15: what a read of an offset returns. -/
def hostRead (s : State) (o : Offset) : Byte :=
  match portOf o with
  | .cmd => 0x00
  | .status => statusByte s.status
  | .data r => regVal s.regs r
  | .reservedE => 0x00
  | .reservedF => 0x00

/-- R94, R97: a write to an RW register; R95: to DOUT it is ignored. -/
def hostWriteReg (r : Reg) (v : Byte) (s : State) : State :=
  if hostWritable r then (if s.status.busy then dropWrite s else { s with regs := regSet s.regs r v }) else s

/-- R96, R102: a write to CMD: the command of the byte, or the illegal command. -/
def hostWriteCmd (c : Byte) (s : State) : Result :=
  match decode c with
  | .ok i => exec i s
  | .error _ => illegalCommand s

/-- R94 to R97: a host write. -/
def hostWrite (o : Offset) (v : Byte) (s : State) : Result :=
  match portOf o with
  | .cmd => hostWriteCmd v s
  | .data r => .next (hostWriteReg r v s)
  | .status => .next s
  | .reservedE => .next s
  | .reservedF => .next s

/-- R40: one host access. A read adds what it returned to the host's record. -/
def hostAccess (a : HostAccess) (s : State) : Result :=
  match a with
  | .read o => .next { s with reads := s.reads ++ [⟨o, hostRead s o⟩] }
  | .write o v => hostWrite o v s

/-- Host accesses one after another, with no other agent between them. -/
def hostAccesses : List HostAccess → State → Result
  | [], s => .next s
  | a :: as, s =>
    match hostAccess a s with
    | .next s' => hostAccesses as s'
    | .fault r => .fault r
    | .refused r => .refused r

end Sys2Proof.Machine
end

