-- ==== Sys2Proof/Machine/Sequencer.lean ====
section
/-! DEFINITION. The sequencer (10_state.md R31, 43_command_control.md R99). -/

namespace Sys2Proof.Machine

/-- R99: the calls of a command with its latched operands. -/
def frame (p : Params) (op : SeqOp) (l : Latch) : List BusCall :=
  match op with
  | .rtcw => rtcwFrame p l.time
  | .rtcr => rtcrFrame
  | .eew => eewFrame l.addr l.data
  | .eer => eerFrame l.addr

/-- R56: the register writes of a command's completion. -/
def results (op : SeqOp) (rbuf : Bytes7) : List (Reg × Byte) :=
  match op with
  | .rtcw => []
  | .rtcr => rtcrResults rbuf
  | .eew => []
  | .eer => eerResults rbuf

/-- R99: the pseudocode after call `k`: the step that makes the last call completes. -/
def advance (op : SeqOp) (k : Nat) (s : State) : State :=
  if k + 1 = (frame s.params op s.latch).length then complete (results op s.rbuf) s
  else { s with seq := .run op (k + 1) }

/-- R83, R92, R99: what follows a call, by its event: no byte available ends the command, a byte read goes to RBUF. -/
def afterCall (op : SeqOp) (k : Nat) (ev : BusEvent) (s : State) : State :=
  match ev with
  | .avail false => raiseError .noData s
  | .rd b => advance op k (storeByte b s)
  | .avail true | .beginTxn _ | .wr _ | .endTxn | .req _ _ | .settle => advance op k s

/-- R99: one sequencer step. With SEQ idle there is nothing to do. -/
def seqStep (s : State) : Result :=
  match s.seq with
  | .idle => .next s
  | .run op k =>
    match (frame s.params op s.latch)[k]? with
    | none => .fault .badSequencerIndex
    | some c => .next (afterCall op k (busCall c s).1 (busCall c s).2)

/-- `n` sequencer steps. -/
def seqSteps : Nat → State → Result
  | 0, s => .next s
  | n + 1, s =>
    match seqStep s with
    | .next s' => seqSteps n s'
    | .fault r => .fault r
    | .refused r => .refused r

end Sys2Proof.Machine
end

