-- ==== Sys2Proof/Machine/Schedule.lean ====
section
/-! DEFINITION. Which agent makes the next step (20_memory.md R40, 43_command_control.md R99), the step of each agent, and how
a host program is placed. -/

namespace Sys2Proof.Machine

/-- The agent that moves next: the script's, if it names one. Otherwise the host while no command runs, and while one runs the
sequencer (eager rule) or a free draw. -/
def nextTurn (s : State) : Turn × State :=
  match s.script with
  | t :: ts => (t, { s with script := ts })
  | [] =>
    match s.seq with
    | .idle => (.host, s)
    | .run _ _ =>
      match s.rule with
      | .eager => (.sequencer, s)
      | .free => (Config.turnDraw s.draws, { s with draws := s.draws + 1 })

/-- R40, R60: the host's next access. A `wait` reads STATUS, and is over when bit 0 (BUSY) reads 0. A host with nothing to do
does nothing. -/
def hostStep (s : State) : Result :=
  match s.program with
  | [] => .next s
  | .access a :: rest => hostAccess a { s with program := rest }
  | .wait :: rest =>
    hostAccess (.read (portOffset .status))
      { s with program := if (hostRead s (portOffset .status)).getLsbD 0 then .wait :: rest else rest }

/-- One indivisible step of the agent whose turn it is. -/
def takeTurn (t : Turn) (s : State) : Result :=
  match t with
  | .host => hostStep s
  | .sequencer => seqStep s
  | .reset => .next (applyReset s)

/-- Turns taken one after another. -/
def takeTurns : List Turn → State → Result
  | [], s => .next s
  | t :: ts, s =>
    match takeTurn t s with
    | .next s' => takeTurns ts s'
    | .fault r => .fault r
    | .refused r => .refused r

/-- An access placed so that it is the very next step. -/
def placeAccess (a : HostAccess) (s : State) : State :=
  { s with program := .access a :: s.program, script := .host :: s.script }

/-- R59: a program of access words loaded into the host (assumption log 7); none if a word is no access word. -/
def loadProgram (ws : List AccessWord) (s : State) : Option State :=
  match decodeAccesses ws with
  | .ok as => some { s with program := as.map .access }
  | .error _ => none

/-- R60: a program of statements loaded into the host (assumption log 7). -/
def loadStatements (ss : List Stmt) (s : State) : State :=
  { s with program := ss.flatMap Stmt.hostOps }

end Sys2Proof.Machine
end

