-- ==== Sys2Proof/Machine/Step.lean ====
section
/-! DEFINITION. One step of the machine, and a command placed where the next step takes it. -/

namespace Sys2Proof.Machine

/-- R40: one indivisible step, of the agent whose turn it is. -/
def step (s : State) : Host.Outcome State Fault Refusal :=
  takeTurn (nextTurn s).1 (nextTurn s).2

/-- The block fetches nothing (R53): a command comes as a host write to CMD. `w` is placed as the host's next access, and the
next turn is the host's (assumption log 7). A command is one byte (R58), so the bits of `w` above 8 are not used. -/
def State.withFetchWord (s : State) (_nbits w : Nat) : State :=
  placeAccess (.write 0x0 (BitVec.ofNat 8 w)) s

end Sys2Proof.Machine
end

