-- ==== Sys2Proof/Safety.lean ====
section
/-! DEFINITION. What a run keeps (the invariant), and the duties of a host program (70_reset_and_hazards.md R123 to R126). -/

namespace Sys2Proof.Machine

/-- The events of a list of calls when every byte is available and the bytes read are `bs` (R63, R64, R67, R68). -/
def callEvents : List BusCall → List Byte → List BusEvent
  | [], _ => []
  | .read :: cs, b :: bs => .rd b :: callEvents cs bs
  | .read :: _, [] => []
  | .avail :: cs, bs => .avail true :: callEvents cs bs
  | .beginTxn id :: cs, bs => .beginTxn id :: callEvents cs bs
  | .write v :: cs, bs => .wr v :: callEvents cs bs
  | .endTxn :: cs, bs => .endTxn :: callEvents cs bs
  | .request id n :: cs, bs => .req id n :: callEvents cs bs
  | .settle :: cs, bs => .settle :: callEvents cs bs

/-- How many of the first `k` calls of a command are reads (R32: RCNT). -/
def readsBefore (op : SeqOp) (k : Nat) : Nat :=
  match op with
  | .rtcw => 0
  | .rtcr => (k - 4) / 2
  | .eew => 0
  | .eer => 0

/-- R98: the latched operands are what the operand registers still hold. -/
def latchAgrees (op : SeqOp) (l : Latch) (f : RegFile) : Prop :=
  match op with
  | .rtcw => l.time = timeRecord f
  | .rtcr => True
  | .eew => l.addr = eeAddress f ∧ l.data = regVal f .eeData
  | .eer => l.addr = eeAddress f

/-- R78, R87: the operands of a running command are in range. -/
def operandsInRange (op : SeqOp) (f : RegFile) : Bool :=
  match op with
  | .rtcw => timeInRange (timeRecord f)
  | .rtcr => true
  | .eew => eeInRange (eeAddress f)
  | .eer => eeInRange (eeAddress f)

/-- What holds while `RUN(op, k)`: the index is inside the frame, RCNT counts the reads made, the latch agrees with the operand
registers, the operands passed the range check, and the last `k` events of the trace are the first `k` of the frame. -/
structure RunInv (s : State) (op : SeqOp) (k : Nat) : Prop where
  inside : k < (frame s.params op s.latch).length
  count : s.rcnt = readsBefore op k
  latched : latchAgrees op s.latch s.regs
  checked : s.params.checkRange = true → operandsInRange op s.regs = true
  traced : ∃ past, s.trace = past ++ (callEvents (frame s.params op s.latch) (listOfBytes7 s.rbuf)).take k

/-- The nine STATUS bytes a run can show: none of R17's bits after reset; BUSY with or without ERR_BUSY; DONE alone, with
ERR_BUSY, with NODATA, with both, with ERR_RANGE, or with ERR_ILL. -/
def legalStatusBytes : List Byte := [0x00, 0x01, 0x21, 0x02, 0x22, 0x0A, 0x2A, 0x06, 0x12]

/-- R54: the only identifiers the block addresses. -/
def addressesKnownDevice : BusEvent → Prop
  | .beginTxn id => id = rtcId ∨ id = eeId
  | .req id _ => id = rtcId ∨ id = eeId
  | .wr _ | .endTxn | .avail _ | .rd _ | .settle => True

/-- The memories of the reference devices are in canonical form and inside their address spaces (R50, R51). -/
structure DevicesWf (b : RefBus) : Prop where
  rtcWf : b.rtc.mem.wf = true
  rtcBelow : b.rtc.mem.below 256 = true
  eeWf : b.ee.mem.wf = true
  eeBelow : b.ee.mem.below eeSize = true

/-- The invariant of the machine. -/
structure Inv (s : State) : Prop where
  busyIffRunning : s.status.busy = true ↔ s.seq ≠ .idle
  statusLegal : statusByte s.status ∈ legalStatusBytes
  rangeNeedsCheck : s.status.errRange = true → s.params.checkRange = true
  running : ∀ op k, s.seq = .run op k → RunInv s op k
  devices : DevicesWf s.env.ref
  traceIds : ∀ ev ∈ s.trace, addressesKnownDevice ev

/-- R104: no command runs, so the next CMD write is accepted (R96). -/
structure Ready (s : State) : Prop where
  notBusy : s.status.busy = false
  idle : s.seq = .idle

/-- DONE alone, the byte 0x02: success (R100). -/
def doneStatus : Status := ⟨false, true, false, false, false, false⟩

/-- DONE with ERR_RANGE, 0x06 (R106). -/
def rangeErrorStatus : Status := ⟨false, true, true, false, false, false⟩

/-- DONE with NODATA, 0x0A (R107). -/
def noDataStatus : Status := ⟨false, true, false, true, false, false⟩

/-- DONE with ERR_ILL, 0x12 (R102). -/
def illegalStatus : Status := ⟨false, true, false, false, true, false⟩

/-- BUSY alone, 0x01: a sequenced command just accepted (R96). -/
def busyStatus : Status := ⟨true, false, false, false, false, false⟩

/-- R56, "reads": the operand registers of a command. -/
def operandRegs : Instr → List Reg
  | .nop => []
  | .enc => [.din]
  | .dec => [.din]
  | .rtcw => [.tSec, .tMin, .tHour, .tDow, .tDom, .tMon, .tYear]
  | .rtcr => []
  | .eew => [.eeAddrH, .eeAddrL, .eeData]
  | .eer => [.eeAddrH, .eeAddrL]

/-- R126: the host has written every operand register of the command since reset (or a command has). -/
def operandsWritten (i : Instr) (s : State) : Bool := (operandRegs i).all fun r => (regGet s.regs r).written

/-- R38: a read of the offset returns a value the rules fix. -/
def readIsFixed (o : Offset) (s : State) : Bool :=
  match portOf o with
  | .data r => (regGet s.regs r).written
  | .cmd => true
  | .status => true
  | .reservedE => true
  | .reservedF => true

/-- R38, R123, R126: an access that keeps the host's duties: no write to CMD or an RW register while BUSY, no command on
unwritten operands, no read of an unwritten register. -/
def safeAccess (a : HostAccess) (s : State) : Bool :=
  match a with
  | .read o => readIsFixed o s
  | .write o v =>
    match portOf o with
    | .cmd =>
      !s.status.busy &&
        (match decode v with
         | .ok i => operandsWritten i s
         | .error _ => true)
    | .data r => !(hostWritable r && s.status.busy)
    | .status => true
    | .reservedE => true
    | .reservedF => true

/-- R124: the result registers of the command that STATUS reports on are valid. -/
def resultsValid (i : Instr) (st : Status) : Bool :=
  match i with
  | .enc => st.done && !st.errRange
  | .dec => st.done
  | .rtcr => st.done && !st.noData
  | .eer => st.done && !st.errRange && !st.noData
  | .nop => st.done
  | .rtcw => st.done
  | .eew => st.done

end Sys2Proof.Machine
end

