-- ==== Sys2Proof/Certificates/Slice0/Obligations.lean ====
section
/-! DEFINITION. The statements for the provers. Each docstring names the rule of spec/ it comes from. -/

open Sys2Proof Sys2Proof.Machine

/-! ## Encodings -/

/-- 30_encoding.md R56: the seven command bytes, written out. -/
def Obligations.CommandBytesOfTheSevenCommands : Prop :=
  decode 0b00000000#8 = .ok .nop ∧ decode 0b00010000#8 = .ok .enc ∧ decode 0b00010001#8 = .ok .dec ∧
  decode 0b00100000#8 = .ok .rtcw ∧ decode 0b00100001#8 = .ok .rtcr ∧ decode 0b00110000#8 = .ok .eew ∧
  decode 0b00110001#8 = .ok .eer

/-- R55: a command's byte is its own, and decodes to it alone. -/
def Obligations.CommandEncodingIsOneToOne : Prop :=
  ∀ (c : Byte) (i : Instr), decode c = .ok i ↔ c = encode i

/-- R57: every other byte is illegal; written to CMD while no command runs it sets ERR_ILL and DONE and changes nothing else. -/
def Obligations.OtherBytesAreIllegalCommands : Prop :=
  ∀ c : Byte,
    (commandByteWellFormed c = true ∧ ∃ i, decode c = .ok i) ∨
    (((0x01 ≤ c.toNat ∧ c.toNat ≤ 0x0F) ∨ (0x12 ≤ c.toNat ∧ c.toNat ≤ 0x1F) ∨ (0x22 ≤ c.toNat ∧ c.toNat ≤ 0x2F) ∨
        0x32 ≤ c.toNat) ∧
      decode c = .error (.illegalCommand c) ∧ statusByte illegalStatus = 0x12 ∧
      ∀ s : State, Ready s → hostAccess (.write 0x0 c) s = .next { s with status := illegalStatus })

/-- R59: the host access word: which words are accesses, which access each is, and the three examples. -/
def Obligations.AccessWordFormat : Prop :=
  (∀ (w : AccessWord) (a : HostAccess), decodeAccess w = .ok a ↔ w = encodeAccess a) ∧
  (∀ w : AccessWord, (∃ a, decodeAccess w = .ok a) ↔
    (w.extractLsb' 12 3 = 0#3 ∧ (w.getLsbD 15 = false → w.extractLsb' 0 8 = 0#8))) ∧
  (∀ (w : AccessWord) (o : Offset), decodeAccess w = .ok (.read o) → w.getLsbD 15 = false ∧ o = w.extractLsb' 8 4) ∧
  (∀ (w : AccessWord) (o : Offset) (v : Byte), decodeAccess w = .ok (.write o v) →
    w.getLsbD 15 = true ∧ o = w.extractLsb' 8 4 ∧ v = w.extractLsb' 0 8) ∧
  encodeAccess (.write 0x0 0x10) = 0x8010#16 ∧ encodeAccess (.read 0x1) = 0x0100#16 ∧
  encodeAccess (.write 0xC 0x64) = 0x8C64#16

/-- R60: the words of `wr` and `rd`, and the accesses every statement's words decode to, where a `wait` took `n` reads. -/
def Obligations.StatementsAssembleToTheirAccesses : Prop :=
  (∀ (n : Nat) (p : Port) (v : Byte), assemble n (.wr p v) =
    [0x8000#16 ||| ((portOffset p).setWidth 16 <<< 8) ||| v.setWidth 16]) ∧
  (∀ (n : Nat) (p : Port), assemble n (.rd p) = [(portOffset p).setWidth 16 <<< 8]) ∧
  (∀ (n : Nat) (p : Port) (v : Byte), decodeAccesses (assemble n (.wr p v)) = .ok [.write (portOffset p) v]) ∧
  (∀ (n : Nat) (p : Port), decodeAccesses (assemble n (.rd p)) = .ok [.read (portOffset p)]) ∧
  (∀ (n : Nat) (i : Instr), decodeAccesses (assemble n (.cmd i)) = .ok [.write 0x0 (encode i)]) ∧
  (∀ n : Nat, decodeAccesses (assemble n .wait) = .ok (List.replicate n (.read 0x1))) ∧
  (∀ (n : Nat) (i : Instr), decodeAccesses (assemble n (.op i)) =
    .ok (.write 0x0 (encode i) :: List.replicate n (.read 0x1)))

/-- 10_state.md R15: each offset is one register and each register one offset. -/
def Obligations.RegisterMapIsOneToOne : Prop :=
  (∀ p : Port, portOf (portOffset p) = p) ∧ (∀ o : Offset, portOffset (portOf o) = o)

/-! ## The step -/

/-- A CMD write placed as the next access runs its command, whatever the rest of the state. -/
def Obligations.StepRunsTheDecodedCommand : Prop :=
  (∀ (s : State) (i : Instr), step (s.withFetchWord 8 (encode i).toNat) = exec i s) ∧
  (∀ (s : State) (c : Byte) (i : Instr) (rest : List HostOp) (ts : List Turn),
    decode c = .ok i → s.program = .access (.write 0x0 c) :: rest → s.script = .host :: ts →
    step s = exec i { s with program := rest, script := ts })

/-- 20_memory.md R40, 43_command_control.md R99: a step is the step of the agent whose turn it is. -/
def Obligations.StepIsTheTurnOfOneAgent : Prop :=
  (∀ (s : State) (ts : List Turn), s.script = .sequencer :: ts → step s = seqStep { s with script := ts }) ∧
  (∀ (s : State) (ts : List Turn), s.script = .reset :: ts → step s = .next (applyReset { s with script := ts })) ∧
  (∀ (s : State) (a : HostAccess) (rest : List HostOp) (ts : List Turn),
    s.script = .host :: ts → s.program = .access a :: rest → step s = hostAccess a { s with program := rest, script := ts }) ∧
  (∀ (s : State) (a : HostAccess) (rest : List HostOp),
    s.script = [] → s.seq = .idle → s.program = .access a :: rest → step s = hostAccess a { s with program := rest }) ∧
  (∀ s : State, s.script = [] → s.rule = .eager → s.seq ≠ .idle → step s = seqStep s)

/-- Every command's accepting write answers a next state, from every state. That a command on operands unwritten since reset
does not fault is the model's choice (log 1, DESIGN CHOICE; R38 and R126 have a model fault there). -/
def Obligations.EveryCommandAnswersANextState : Prop :=
  ∀ (i : Instr) (s : State), ∃ t, exec i s = .next t

/-! ## Host accesses -/

/-- R24, R30: STATUS[7:6] and the reserved offsets. -/
def Obligations.ReservedBitsAndOffsetsReadZero : Prop :=
  (∀ s : State, (hostRead s 0x1).extractLsb' 6 2 = 0#2) ∧
  (∀ s : State, hostRead s 0xE = 0x00 ∧ hostRead s 0xF = 0x00) ∧
  (∀ (s : State) (v : Byte), hostAccess (.write 0xE v) s = .next s ∧ hostAccess (.write 0xF v) s = .next s)

/-- R17: the bits of the STATUS byte. -/
def Obligations.StatusByteLayout : Prop :=
  ∀ s : State,
    hostRead s 0x1 = statusByte s.status ∧
    (statusByte s.status).getLsbD 0 = s.status.busy ∧ (statusByte s.status).getLsbD 1 = s.status.done ∧
    (statusByte s.status).getLsbD 2 = s.status.errRange ∧ (statusByte s.status).getLsbD 3 = s.status.noData ∧
    (statusByte s.status).getLsbD 4 = s.status.errIll ∧ (statusByte s.status).getLsbD 5 = s.status.errBusy

/-- R93, R16: what a read returns, and that it changes nothing but the host's own record of what it read. -/
def Obligations.HostReadHasNoSideEffect : Prop :=
  ∀ s : State,
    (∀ o : Offset, hostAccess (.read o) s = .next { s with reads := s.reads ++ [⟨o, hostRead s o⟩] }) ∧
    (∀ r : Reg, hostRead s (regOffset r) = regVal s.regs r) ∧ hostRead s 0x0 = 0x00

/-- R94: a write to an RW register while no command runs. -/
def Obligations.HostWriteStoresAnyByte : Prop :=
  ∀ (s : State) (r : Reg) (v : Byte), r ≠ .dout → s.status.busy = false →
    hostAccess (.write (regOffset r) v) s = .next { s with regs := regSet s.regs r v } ∧
    regVal (regSet s.regs r v) r = v ∧ (∀ q : Reg, q ≠ r → regGet (regSet s.regs r v) q = regGet s.regs q)

/-- R95: writes to STATUS, DOUT and the reserved offsets. -/
def Obligations.WritesToReadOnlyOffsetsAreIgnored : Prop :=
  ∀ (s : State) (v : Byte) (o : Offset), (o = 0x1 ∨ o = 0x3 ∨ o = 0xE ∨ o = 0xF) → hostAccess (.write o v) s = .next s

/-- R97: a write to CMD or an RW register while BUSY = 1. -/
def Obligations.WritesWhileBusyAreDropped : Prop :=
  ∀ (s : State) (v : Byte) (o : Offset), s.status.busy = true → o ≠ 0x1 → o ≠ 0x3 → o ≠ 0xE → o ≠ 0xF →
    hostAccess (.write o v) s = .next { s with status := { s.status with errBusy := true } }

/-- R123: a host that keeps its duties never sets ERR_BUSY. -/
def Obligations.SafeAccessIsNeverDropped : Prop :=
  ∀ (a : HostAccess) (s t : State), safeAccess a s = true → hostAccess a s = .next t →
    t.status.errBusy = true → s.status.errBusy = true

/-- R60: a `wait` repeats `rd STATUS` until BUSY reads 0. One read: the wait stays the host's next work exactly while BUSY = 1.
A whole wait, with any turns of the sequencer and the reset input between its reads: the bytes it read, and that the same
turns with a run of as many `rd STATUS` words in its place end in the same state. -/
def Obligations.WaitReadsStatusUntilBusyIsClear : Prop :=
  (∀ (s : State) (rest : List HostOp), s.program = .wait :: rest →
    hostStep s = .next { s with
      reads := s.reads ++ [⟨0x1, statusByte s.status⟩]
      program := if s.status.busy then .wait :: rest else rest }) ∧
  (∀ (s : State) (ts : List Turn), s.script = .host :: ts → step s = hostStep { s with script := ts }) ∧
  (∀ (ts : List Turn) (s u t : State) (rest : List HostOp), s.program = .wait :: rest → takeTurns ts s = .next u →
    u.program = .wait :: rest → hostStep u = .next t → t.program = rest →
    ∃ (bs : List Byte) (as : List HostAccess), waitReadsWellFormed bs = true ∧ bs.length = ts.count .host + 1 ∧
      t.reads = s.reads ++ bs.map (fun b => ⟨0x1, b⟩) ∧ decodeAccesses (assemble bs.length .wait) = .ok as ∧
      takeTurns (ts ++ [.host]) { s with program := as.map .access ++ rest } = .next t)

/-! ## NOP and the codec -/

/-- R101: NOP leaves STATUS = 0x02 and changes nothing else. -/
def Obligations.NopLeavesOnlyDone : Prop :=
  decode 0x00 = .ok .nop ∧ statusByte doneStatus = 0x02 ∧
  ∀ s : State, Ready s → exec .nop s = .next { s with status := doneStatus }

/-- R74: ENC on each of its three paths; everything not named is unchanged. -/
def Obligations.EncWritesDoutOrRaisesRangeError : Prop :=
  (∀ s : State, Ready s → (regVal s.regs .din).toNat ≤ 99 →
    exec .enc s = .next { s with status := doneStatus, regs := regSet s.regs .dout (trunc8 (enc (regVal s.regs .din))) }) ∧
  (∀ s : State, Ready s → 100 ≤ (regVal s.regs .din).toNat → s.params.checkRange = true →
    exec .enc s = .next { s with status := rangeErrorStatus }) ∧
  (∀ s : State, Ready s → 100 ≤ (regVal s.regs .din).toNat → s.params.checkRange = false →
    exec .enc s = .next { s with status := doneStatus, regs := regSet s.regs .dout (encOvf s.params (regVal s.regs .din)) }) ∧
  (∀ (p : Params) (v : Byte), p.encOvf = .truncated → encOvf p v = trunc8 (enc v)) ∧
  decode 0x10 = .ok .enc ∧ statusByte doneStatus = 0x02 ∧ statusByte rangeErrorStatus = 0x06 ∧
  trunc8 (enc 0) = 0x00 ∧ trunc8 (enc 45) = 0x45 ∧ trunc8 (enc 99) = 0x99 ∧ trunc8 (enc 100) = 0xA0 ∧
  trunc8 (enc 160) = 0x00 ∧ trunc8 (enc 255) = 0x95

/-- R75: DEC, for every DIN and either CHECK_RANGE; everything not named is unchanged. -/
def Obligations.DecWritesDout : Prop :=
  (∀ s : State, Ready s →
    exec .dec s = .next { s with status := doneStatus, regs := regSet s.regs .dout (dec (regVal s.regs .din)) }) ∧
  (∀ v : Byte, (dec v).toNat = (v.toNat / 16) * 10 + v.toNat % 16) ∧
  decode 0x11 = .ok .dec ∧ statusByte doneStatus = 0x02 ∧
  dec 0x00 = 0 ∧ dec 0x99 = 99 ∧ dec 0x0A = 10 ∧ dec 0x2A = 30 ∧ dec 0xA0 = 100 ∧ dec 0x7F = 85 ∧ dec 0x3F = 45 ∧ dec 0xFF = 165

/-- R73: the nibbles of `enc` on 0..99; the sum and its bound are R69's, the spec's own inference. -/
def Obligations.EncNibblesAreTensAndUnits : Prop :=
  ∀ d : Byte, d.toNat ≤ 99 →
    enc d = 16 * (d.toNat / 10) + d.toNat % 10 ∧ enc d ≤ 0x99 ∧
    ((trunc8 (enc d)).extractLsb' 4 4).toNat = d.toNat / 10 ∧ ((trunc8 (enc d)).extractLsb' 0 4).toNat = d.toNat % 10

/-- R70: `dec` on every byte; its bound is the spec's own inference. -/
def Obligations.DecWeighsTheNibbles : Prop :=
  ∀ v : Byte, (dec v).toNat = (v.toNat / 16) * 10 + v.toNat % 16 ∧ (dec v).toNat ≤ 165

/-- R72: the round trips of the codec; the second is the spec's own inference. -/
def Obligations.CodecRoundTrip : Prop :=
  (∀ d : Byte, d.toNat ≤ 99 → dec (trunc8 (enc d)) = d) ∧
  (∀ b : Byte, validBcd b = true → trunc8 (enc (dec b)) = b) ∧
  dec 0x0A = 10 ∧ enc 10 = 0x10

/-- R76, the spec's own inference: `dec` on valid BCD is a bijection onto 0..99; on all bytes neither function is injective. -/
def Obligations.CodecImageAndAliases : Prop :=
  (∀ v : Byte, validBcd v = true → (dec v).toNat ≤ 99) ∧
  (∀ v w : Byte, validBcd v = true → validBcd w = true → dec v = dec w → v = w) ∧
  (∀ d : Byte, d.toNat ≤ 99 → ∃ v, validBcd v = true ∧ dec v = d) ∧
  dec 0x0A = dec 0x10 ∧ (∀ c : Bool, encOvf ⟨c, .truncated⟩ 160 = trunc8 (enc 0)) ∧
  (∀ n : Nat, n ≤ 165 → ∃ v : Byte, (dec v).toNat = n)

/-! ## The RTC multiplexer -/

/-- R63, R82: RTCW raises RangeError in the accepting write, or sends its frame in ten sequencer steps and completes; no register
but STATUS is written. The frame is sent whatever the bus environment does. -/
def Obligations.RtcwSendsTheEncodedRecord : Prop :=
  (∀ s : State, Ready s → s.params.checkRange = true → timeInRange (timeRecord s.regs) = false →
    exec .rtcw s = .next { s with status := rangeErrorStatus }) ∧
  (∀ s : State, Ready s → (s.params.checkRange = true → timeInRange (timeRecord s.regs) = true) →
    ∃ t u, exec .rtcw s = .next t ∧ t.trace = s.trace ∧
      (∀ n : Nat, n ≤ 9 → ∃ x, seqSteps n t = .next x ∧ x.status = busyStatus ∧ x.seq = .run .rtcw n ∧ x.regs = s.regs) ∧
      seqSteps 10 t = .next u ∧ u.status = doneStatus ∧ u.seq = .idle ∧ u.regs = s.regs ∧ u.params = s.params ∧
      u.program = s.program ∧ u.reads = s.reads ∧
      u.trace = s.trace ++
        [.beginTxn 0x68, .wr 0x00, .wr (encByte s.params s.regs.tSec.val), .wr (encByte s.params s.regs.tMin.val),
         .wr (encByte s.params s.regs.tHour.val), .wr (encByte s.params s.regs.tDow.val),
         .wr (encByte s.params s.regs.tDom.val), .wr (encByte s.params s.regs.tMon.val),
         .wr (encByte s.params s.regs.tYear.val), .endTxn]) ∧
  (∀ (p : Params) (v : Byte), v.toNat ≤ 99 → encByte p v = trunc8 (enc v)) ∧
  (∀ (p : Params) (v : Byte), 100 ≤ v.toNat → encByte p v = encOvf p v) ∧
  (∀ c : Bool, encByte ⟨c, .truncated⟩ 85 = 0x85 ∧ encByte ⟨c, .truncated⟩ 64 = 0x64 ∧ encByte ⟨c, .truncated⟩ 0 = 0x00 ∧
    encByte ⟨c, .truncated⟩ 160 = 0x00) ∧
  (∀ (s : State) (r : Reg) (v : Byte), r ∈ operandRegs .rtcw → s.status.busy = true →
    hostAccess (.write (regOffset r) v) s = .next { s with status := { s.status with errBusy := true } }) ∧
  decode 0x20 = .ok .rtcw ∧ statusByte busyStatus = 0x01 ∧ statusByte doneStatus = 0x02 ∧ statusByte rangeErrorStatus = 0x06

/-- R77, R78: the documented ranges. -/
def Obligations.FieldRangesAreTheDocumentedOnes : Prop :=
  ∀ t : Bytes7, timeInRange t = true ↔
    (t.b0.toNat ≤ 59 ∧ t.b1.toNat ≤ 59 ∧ t.b2.toNat ≤ 23 ∧ t.b3.toNat ≤ 7 ∧ (1 ≤ t.b4.toNat ∧ t.b4.toNat ≤ 31) ∧
      (1 ≤ t.b5.toNat ∧ t.b5.toNat ≤ 12) ∧ t.b6.toNat ≤ 99)

/-- R64, R83, with the listed answers of the free environment (the model's inputs, log 9): RTCR, for each number of bytes the environment gives. All seven: 18 steps, and the seven T registers hold the
masked and decoded bytes, written in the last step. Byte `i` missing: 4 + 2i + 1 steps, NODATA, and no register written. -/
def Obligations.RtcrFillsTheRecordOrReportsNoData : Prop :=
  (∀ (s : State) (b : Bytes7) (avails : List Bool) (bytes : List Byte), Ready s →
    s.env.kind = .free → s.env.avails = List.replicate 7 true ++ avails → s.env.bytes = listOfBytes7 b ++ bytes →
    ∃ t u, exec .rtcr s = .next t ∧ t.trace = s.trace ∧
      (∀ n : Nat, n ≤ 17 → ∃ x, seqSteps n t = .next x ∧ x.status = busyStatus ∧ x.seq = .run .rtcr n ∧ x.regs = s.regs) ∧
      seqSteps 18 t = .next u ∧ u.status = doneStatus ∧ u.seq = .idle ∧ u.params = s.params ∧
      u.program = s.program ∧ u.reads = s.reads ∧
      timeRecord u.regs = ⟨dec (b.b0 &&& 0x7F), dec b.b1, dec (b.b2 &&& 0x3F), dec b.b3, dec b.b4, dec b.b5, dec b.b6⟩ ∧
      u.regs = regSetAll s.regs (timeWrites (timeRecord u.regs)) ∧
      u.trace = s.trace ++ [.beginTxn 0x68, .wr 0x00, .endTxn, .req 0x68 7] ++
        (listOfBytes7 b).flatMap (fun v => [.avail true, .rd v])) ∧
  (∀ (s : State) (i : Nat) (b : List Byte) (avails : List Bool) (bytes : List Byte), i < 7 → b.length = i → Ready s →
    s.env.kind = .free → s.env.avails = List.replicate i true ++ false :: avails → s.env.bytes = b ++ bytes →
    ∃ t u, exec .rtcr s = .next t ∧ seqSteps (4 + 2 * i + 1) t = .next u ∧ u.status = noDataStatus ∧ u.seq = .idle ∧
      u.regs = s.regs ∧ u.params = s.params ∧ u.program = s.program ∧ u.reads = s.reads ∧
      u.trace = s.trace ++ [.beginTxn 0x68, .wr 0x00, .endTxn, .req 0x68 7] ++
        b.flatMap (fun v => [.avail true, .rd v]) ++ [.avail false]) ∧
  (∀ v : Byte, (dec v).toNat = (v.toNat / 16) * 10 + v.toNat % 16) ∧
  decode 0x21 = .ok .rtcr ∧ statusByte busyStatus = 0x01 ∧ statusByte doneStatus = 0x02 ∧ statusByte noDataStatus = 0x0A

/-- R64, R83, whatever the bus environment answers: RTCR either reads seven bytes, and then writes the seven T registers in its
last step, or ends at the first byte that is not available, and writes none. -/
def Obligations.RtcrEndsInOneOfTwoWays : Prop :=
  (∀ s : State, Ready s →
    ∃ t u, exec .rtcr s = .next t ∧ t.trace = s.trace ∧ u.seq = .idle ∧ u.params = s.params ∧ u.program = s.program ∧
      u.reads = s.reads ∧
      ((∃ b : Bytes7,
          (∀ n : Nat, n ≤ 17 →
            ∃ x, seqSteps n t = .next x ∧ x.status = busyStatus ∧ x.seq = .run .rtcr n ∧ x.regs = s.regs) ∧
          seqSteps 18 t = .next u ∧ u.status = doneStatus ∧
          u.regs = regSetAll s.regs (timeWrites
            ⟨dec (b.b0 &&& 0x7F), dec b.b1, dec (b.b2 &&& 0x3F), dec b.b3, dec b.b4, dec b.b5, dec b.b6⟩) ∧
          u.trace = s.trace ++ [.beginTxn 0x68, .wr 0x00, .endTxn, .req 0x68 7] ++
            (listOfBytes7 b).flatMap (fun v => [.avail true, .rd v])) ∨
        ∃ bs : List Byte, bs.length < 7 ∧
          (∀ n : Nat, n ≤ 4 + 2 * bs.length →
            ∃ x, seqSteps n t = .next x ∧ x.status = busyStatus ∧ x.seq = .run .rtcr n ∧ x.regs = s.regs) ∧
          seqSteps (4 + 2 * bs.length + 1) t = .next u ∧ u.status = noDataStatus ∧ u.regs = s.regs ∧
          u.trace = s.trace ++ [.beginTxn 0x68, .wr 0x00, .endTxn, .req 0x68 7] ++
            bs.flatMap (fun v => [.avail true, .rd v]) ++ [.avail false])) ∧
  (∀ v : Byte, (dec v).toNat = (v.toNat / 16) * 10 + v.toNat % 16) ∧
  dec (0xAA &&& 0x7F) = 30 ∧ dec (0xD3 &&& 0x3F) = 13 ∧ dec 0x80 = 80 ∧ dec (0xFF &&& 0x7F) = 85 ∧ dec (0xFF &&& 0x3F) = 45 ∧
  dec 0xFF = 165 ∧
  decode 0x21 = .ok .rtcr ∧ statusByte busyStatus = 0x01 ∧ statusByte doneStatus = 0x02 ∧ statusByte noDataStatus = 0x0A

/-- R83, R48, R107 in any environment: a sequencer step that ends RTCR commits all seven fields, decoded from the bytes that
stand in the trace, or none of them. -/
def Obligations.RtcrCommitsAllFieldsOrNone : Prop :=
  ∀ (s t : State) (k : Nat), Inv s → s.seq = .run .rtcr k → seqStep s = .next t → t.seq = .idle →
    (t.status.noData = true ∧ t.regs = s.regs ∧ t.trace = s.trace ++ [.avail false]) ∨
    (t.status.noData = false ∧ t.status.done = true ∧ ∃ (past : List BusEvent) (b : Bytes7),
      t.trace = past ++ [.beginTxn 0x68, .wr 0x00, .endTxn, .req 0x68 7] ++
        (listOfBytes7 b).flatMap (fun v => [.avail true, .rd v]) ∧
      t.regs = regSetAll s.regs (timeWrites (unpack b)))

/-- R84, the spec's own inference: pack then unpack on in-range records, and the two counterexamples outside the ranges. -/
def Obligations.PackUnpackRoundTrip : Prop :=
  (∀ (p : Params) (t : Bytes7), timeInRange t = true → unpack (pack p t) = t) ∧
  (∀ (p : Params) (t : Bytes7), t.b0 = 85 → (unpack (pack p t)).b0 = 5) ∧
  (∀ (p : Params) (t : Bytes7), t.b2 = 45 → (unpack (pack p t)).b2 = 5)

/-- R81, the spec's own inference: the largest values unpack can give. -/
def Obligations.UnpackedFieldsAreBounded : Prop :=
  ∀ b : Bytes7, (unpack b).b0.toNat ≤ 85 ∧ (unpack b).b2.toNat ≤ 45 ∧ (unpack b).b1.toNat ≤ 165 ∧
    (unpack b).b3.toNat ≤ 165 ∧ (unpack b).b4.toNat ≤ 165 ∧ (unpack b).b5.toNat ≤ 165 ∧ (unpack b).b6.toNat ≤ 165

/-- R86, the spec's own inference: the control bits RTCW sends for an in-range record. -/
def Obligations.InRangeRecordsSendZeroControlBits : Prop :=
  ∀ (p : Params) (t : Bytes7), timeInRange t = true →
    (pack p t).b0.getLsbD 7 = false ∧ (pack p t).b2.extractLsb' 6 2 = 0#2

/-- R84 on the reference bus: RTCW then RTCR gives the record back. -/
def Obligations.RtcWriteThenReadReturnsTheRecord : Prop :=
  ∀ s : State, Ready s → s.env.kind = .reference → s.env.ref.openTxn = none → s.env.ref.rtc.variant = .normal →
    s.env.ref.rtc.mem.wf = true →
    timeInRange (timeRecord s.regs) = true →
    ∃ t u v w, exec .rtcw s = .next t ∧ seqSteps 10 t = .next u ∧ exec .rtcr u = .next v ∧ seqSteps 18 v = .next w ∧
      w.status = doneStatus ∧ timeRecord w.regs = timeRecord s.regs ∧
      (∀ i : Nat, i < 7 → some (readByte w.env.ref.rtc.mem i) = (listOfBytes7 (pack s.params (timeRecord s.regs)))[i]?) ∧
      (∀ a : Nat, 7 ≤ a → readByte w.env.ref.rtc.mem a = readByte s.env.ref.rtc.mem a) ∧
      w.env.ref.ee = s.env.ref.ee

/-! ## The EEPROM framer -/

/-- R66, R88: the frame bytes of an address, high byte first; with R65 and R87, the operand and its range. -/
def Obligations.EepromAddressFrame : Prop :=
  (∀ f : RegFile, (eeAddress f).toNat = 256 * f.eeAddrH.val.toNat + f.eeAddrL.val.toNat) ∧
  (∀ f : RegFile, addrHi (eeAddress f) = f.eeAddrH.val ∧ addrLo (eeAddress f) = f.eeAddrL.val) ∧
  (∀ a : EeAddr, (addrHi a).toNat = a.toNat / 256 ∧ (addrLo a).toNat = a.toNat % 256) ∧
  (∀ a : EeAddr, eeInRange a = true ↔ a.getLsbD 15 = false) ∧
  (∀ a : EeAddr, (addrHi a).getLsbD 7 = a.getLsbD 15) ∧
  addrHi 0x1234 = 0x12 ∧ addrLo 0x1234 = 0x34 ∧
  (∀ (p : Params) (l : Latch), (frame p .eew l).take 3 = [.beginTxn 0x50, .write (addrHi l.addr), .write (addrLo l.addr)] ∧
    (frame p .eer l).take 3 = [.beginTxn 0x50, .write (addrHi l.addr), .write (addrLo l.addr)])

/-- R67, R91: EEW raises RangeError in the accepting write, or sends its frame in six sequencer steps, the last of them ending a
hold of at least T_WR, and completes; no register but STATUS is written. -/
def Obligations.EewSendsAddressAndByteAndSettles : Prop :=
  (∀ s : State, Ready s → s.params.checkRange = true → eeInRange (eeAddress s.regs) = false →
    exec .eew s = .next { s with status := rangeErrorStatus }) ∧
  (∀ s : State, Ready s → (s.params.checkRange = true → eeInRange (eeAddress s.regs) = true) →
    ∃ t w u, exec .eew s = .next t ∧ t.trace = s.trace ∧
      (∀ n : Nat, n ≤ 5 → ∃ x, seqSteps n t = .next x ∧ x.status = busyStatus ∧ x.seq = .run .eew n ∧ x.regs = s.regs) ∧
      seqSteps 5 t = .next w ∧ w.settleTimer = 0 ∧
      w.trace = s.trace ++ [.beginTxn 0x50, .wr s.regs.eeAddrH.val, .wr s.regs.eeAddrL.val, .wr s.regs.eeData.val, .endTxn] ∧
      seqStep w = .next u ∧ u.status = doneStatus ∧ u.seq = .idle ∧ u.regs = s.regs ∧ u.params = s.params ∧
      u.program = s.program ∧ u.reads = s.reads ∧
      u.trace = w.trace ++ [.settle] ∧ Config.tWr ≤ u.settleTimer ∧ 0 < Config.tWr) ∧
  (∀ a : EeAddr, eeInRange a = true ↔ a.toNat ≤ 32767) ∧
  (∀ f : RegFile, (eeAddress f).toNat = 256 * f.eeAddrH.val.toNat + f.eeAddrL.val.toNat) ∧
  decode 0x30 = .ok .eew ∧ statusByte busyStatus = 0x01 ∧ statusByte doneStatus = 0x02 ∧ statusByte rangeErrorStatus = 0x06

/-- R68, R92: EER raises RangeError in the accepting write, or reads one byte in seven steps, or ends after six steps with
NODATA and EEDATA as it was; in any environment it does one of these. The second and third clause use the listed answers of
the free environment (the model's inputs, log 9). -/
def Obligations.EerReadsOneByteOrReportsNoData : Prop :=
  (∀ s : State, Ready s → s.params.checkRange = true → eeInRange (eeAddress s.regs) = false →
    exec .eer s = .next { s with status := rangeErrorStatus }) ∧
  (∀ (s : State) (b : Byte) (avails : List Bool) (bytes : List Byte), Ready s →
    (s.params.checkRange = true → eeInRange (eeAddress s.regs) = true) →
    s.env.kind = .free → s.env.avails = true :: avails → s.env.bytes = b :: bytes →
    ∃ t u, exec .eer s = .next t ∧ t.trace = s.trace ∧
      (∀ n : Nat, n ≤ 6 → ∃ x, seqSteps n t = .next x ∧ x.status = busyStatus ∧ x.seq = .run .eer n ∧ x.regs = s.regs) ∧
      seqSteps 7 t = .next u ∧ u.status = doneStatus ∧ u.seq = .idle ∧ u.regs = regSet s.regs .eeData b ∧
      u.params = s.params ∧ u.program = s.program ∧ u.reads = s.reads ∧
      u.trace = s.trace ++ [.beginTxn 0x50, .wr s.regs.eeAddrH.val, .wr s.regs.eeAddrL.val, .endTxn, .req 0x50 1,
        .avail true, .rd b]) ∧
  (∀ (s : State) (avails : List Bool), Ready s →
    (s.params.checkRange = true → eeInRange (eeAddress s.regs) = true) →
    s.env.kind = .free → s.env.avails = false :: avails →
    ∃ t u, exec .eer s = .next t ∧ seqSteps 6 t = .next u ∧ u.status = noDataStatus ∧ u.seq = .idle ∧ u.regs = s.regs ∧
      u.trace = s.trace ++ [.beginTxn 0x50, .wr s.regs.eeAddrH.val, .wr s.regs.eeAddrL.val, .endTxn, .req 0x50 1,
        .avail false]) ∧
  (∀ s : State, Ready s → (s.params.checkRange = true → eeInRange (eeAddress s.regs) = true) →
    ∃ t u, exec .eer s = .next t ∧
      ((seqSteps 6 t = .next u ∧ u.status = noDataStatus ∧ u.seq = .idle ∧ u.regs = s.regs ∧
          u.trace = s.trace ++ [.beginTxn 0x50, .wr s.regs.eeAddrH.val, .wr s.regs.eeAddrL.val, .endTxn, .req 0x50 1,
            .avail false]) ∨
        ∃ b, seqSteps 7 t = .next u ∧ u.status = doneStatus ∧ u.seq = .idle ∧ u.regs = regSet s.regs .eeData b ∧
          u.trace = s.trace ++ [.beginTxn 0x50, .wr s.regs.eeAddrH.val, .wr s.regs.eeAddrL.val, .endTxn, .req 0x50 1,
            .avail true, .rd b])) ∧
  (∀ a : EeAddr, eeInRange a = true ↔ a.toNat ≤ 32767) ∧
  (∀ f : RegFile, (eeAddress f).toNat = 256 * f.eeAddrH.val.toNat + f.eeAddrL.val.toNat) ∧
  decode 0x31 = .ok .eer ∧ statusByte busyStatus = 0x01 ∧ statusByte doneStatus = 0x02 ∧ statusByte noDataStatus = 0x0A ∧
  statusByte rangeErrorStatus = 0x06

/-- R51, R91, R92 on the reference bus: a byte written by EEW is read back by EER, and no other byte changes. -/
def Obligations.EepromWriteThenReadReturnsTheByte : Prop :=
  ∀ s : State, Ready s → s.env.kind = .reference → s.env.ref.openTxn = none → s.env.ref.ee.variant = .normal →
    s.env.ref.ee.writeCycle = none →
    eeInRange (eeAddress s.regs) = true → s.env.ref.ee.mem.wf = true →
    ∃ t u v w, exec .eew s = .next t ∧ seqSteps 6 t = .next u ∧ exec .eer u = .next v ∧ seqSteps 7 v = .next w ∧
      w.status = doneStatus ∧ w.regs = regSet s.regs .eeData s.regs.eeData.val ∧
      readByte w.env.ref.ee.mem (eeAddress s.regs).toNat = s.regs.eeData.val ∧
      (∀ a : Nat, a ≠ (eeAddress s.regs).toNat → readByte w.env.ref.ee.mem a = readByte s.env.ref.ee.mem a) ∧
      w.env.ref.ee.writeCycle = none ∧ w.env.ref.rtc = s.env.ref.rtc

/-- R50 to R52, R83, R92 on the reference bus with no transaction left open: RTCR alone and EER alone leave every byte of both
devices as it was, and end as the device's variant says: with its bytes, or with NODATA at the first byte it does not queue. -/
def Obligations.ReadCommandsLeaveEveryDeviceByte : Prop :=
  (∀ s : State, Ready s → s.env.kind = .reference → s.env.ref.openTxn = none →
    ∃ t u, exec .rtcr s = .next t ∧ u.env.ref.rtc.mem = s.env.ref.rtc.mem ∧ u.env.ref.ee = s.env.ref.ee ∧
      (queued s.env.ref.rtc.variant 7 = 7 → seqSteps 18 t = .next u ∧ u.status = doneStatus ∧
        timeRecord u.regs = unpack ⟨readByte s.env.ref.rtc.mem 0, readByte s.env.ref.rtc.mem 1, readByte s.env.ref.rtc.mem 2,
          readByte s.env.ref.rtc.mem 3, readByte s.env.ref.rtc.mem 4, readByte s.env.ref.rtc.mem 5,
          readByte s.env.ref.rtc.mem 6⟩) ∧
      (queued s.env.ref.rtc.variant 7 < 7 → seqSteps (4 + 2 * queued s.env.ref.rtc.variant 7 + 1) t = .next u ∧
        u.status = noDataStatus ∧ u.regs = s.regs)) ∧
  (∀ s : State, Ready s → s.env.kind = .reference → s.env.ref.openTxn = none → s.env.ref.ee.writeCycle = none →
    eeInRange (eeAddress s.regs) = true →
    ∃ t u, exec .eer s = .next t ∧ u.env.ref.ee.mem = s.env.ref.ee.mem ∧ u.env.ref.rtc = s.env.ref.rtc ∧
      (queued s.env.ref.ee.variant 1 = 1 → seqSteps 7 t = .next u ∧ u.status = doneStatus ∧
        u.regs = regSet s.regs .eeData (readByte s.env.ref.ee.mem (eeAddress s.regs).toNat)) ∧
      (queued s.env.ref.ee.variant 1 = 0 → seqSteps 6 t = .next u ∧ u.status = noDataStatus ∧ u.regs = s.regs)) ∧
  (∀ n : Nat, queued .normal n = n ∧ queued .absent n = 0 ∧ ∀ k : Nat, queued (.short k) n = min k n)

/-! ## Reference devices and their memory -/

/-- R50: the reference RTC stores a transaction's bytes verbatim, with auto-increment, and returns them the same way. -/
def Obligations.ReferenceRtcAutoIncrements : Prop :=
  ∀ (r : RefRtc) (p : Byte) (bs : List Byte), r.variant = .normal → r.mem.wf = true → bs.length ≤ 256 →
    (∀ i : Nat, i < bs.length →
      some (readByte (rtcTransaction r (p :: bs)).mem ((p.toNat + i) % 256)) = bs[i]?) ∧
    (∀ a : Nat, (∀ i : Nat, i < bs.length → a ≠ (p.toNat + i) % 256) →
      readByte (rtcTransaction r (p :: bs)).mem a = readByte r.mem a) ∧
    (rtcTransaction r (p :: bs)).ptr = p + BitVec.ofNat 8 bs.length ∧
    (∀ n i : Nat, i < n → (rtcRequest r n).1[i]? = some (readByte r.mem ((r.ptr.toNat + i) % 256))) ∧
    (∀ n : Nat, (rtcRequest r n).2 = { r with ptr := r.ptr + BitVec.ofNat 8 n })

/-- R52: the availability answer, the read answer, the variants short(k) and absent of either device, and the identifiers of no
device. (An EEPROM request of another count than one is log 13.) -/
def Obligations.ReferenceBusQueuesAndVariants : Prop :=
  (∀ (n : Nat) (b : RefBus), refCall n b .avail = (.avail (decide (b.queue ≠ [])), b)) ∧
  (∀ (n : Nat) (b : RefBus) (v : Byte) (q : List Byte), b.queue = v :: q → refCall n b .read = (.rd v, { b with queue := q })) ∧
  (∀ (r : RefRtc) (k n : Nat), r.variant = .short k → (rtcRequest r n).1 = (rtcRequest { r with variant := .normal } (min k n)).1 ∧
    (rtcRequest r n).1.length = min k n ∧ (rtcRequest r n).2.mem = r.mem) ∧
  (∀ (e : RefEeprom) (n : Nat), e.variant = .normal → e.writeCycle = none →
    eeRequest n e 1 = ([readByte e.mem e.ptr.toNat], e)) ∧
  (∀ (e : RefEeprom) (k n : Nat), e.variant = .short k → e.writeCycle = none →
    eeRequest n e 1 = ([readByte e.mem e.ptr.toNat].take k, e)) ∧
  (∀ (r : RefRtc) (bytes : List Byte) (n : Nat), r.variant = .absent → rtcTransaction r bytes = r ∧ rtcRequest r n = ([], r)) ∧
  (∀ (e : RefEeprom) (bytes : List Byte) (m n : Nat), e.variant = .absent → eeTransaction m e bytes = e ∧ eeRequest m e n = ([], e)) ∧
  (∀ (n cnt : Nat) (b : RefBus) (id : DeviceId) (bytes : List Byte), id ≠ rtcId → id ≠ eeId →
    deliver n b id bytes = { b with openTxn := none } ∧ request n b id cnt = { b with queue := [] })

/-- R120: what the reset action changes in the environment while a command runs. Nothing in the free environment, and nothing
where no transaction is open and no SETTLE awaited. On the reference bus: RTC registers 0..6 for RTCW; for EEW the addressed
byte, to its old or new value; no byte for the two reads; never the device of the other kind. Where the address has bit 15 set,
or the EEPROM is in an older write cycle, the EEPROM's bytes are open (log 14) and stay inside its address space. -/
def Obligations.ResetMidCommandTouchesOnlyAddressedBytes : Prop :=
  (∀ s : State, s.env.kind = .free → (applyReset s).env = s.env) ∧
  ∀ (s : State) (op : SeqOp) (k : Nat), s.seq = .run op k → s.env.kind = .reference →
    (txnOpenAt op k = false → settlingAt op k = false → (applyReset s).env = s.env) ∧
    (∀ a : Nat, (op = .rtcw → 7 ≤ a) → readByte (applyReset s).env.ref.rtc.mem a = readByte s.env.ref.rtc.mem a) ∧
    (op = .rtcw ∨ op = .rtcr → (applyReset s).env.ref.ee = s.env.ref.ee) ∧
    (op = .eew ∨ op = .eer → (applyReset s).env.ref.rtc = s.env.ref.rtc) ∧
    (s.latch.addr.getLsbD 15 = false → (txnOpenAt op k = true → s.env.ref.ee.writeCycle = none) →
      (settlingAt op k = true → ∀ c, s.env.ref.ee.writeCycle = some c → c = (s.latch.addr.extractLsb' 0 15, s.latch.data)) →
      (∀ a : Nat, (op = .eew → a ≠ s.latch.addr.toNat) →
        readByte (applyReset s).env.ref.ee.mem a = readByte s.env.ref.ee.mem a) ∧
      (op = .eew → s.env.ref.ee.mem.wf = true →
        readByte (applyReset s).env.ref.ee.mem s.latch.addr.toNat = readByte s.env.ref.ee.mem s.latch.addr.toNat ∨
        readByte (applyReset s).env.ref.ee.mem s.latch.addr.toNat = s.latch.data)) ∧
    (DevicesWf s.env.ref → DevicesWf (applyReset s).env.ref) ∧
    (applyReset s).env.kind = s.env.kind ∧ (applyReset s).env.avails = s.env.avails ∧
    (applyReset s).env.bytes = s.env.bytes ∧ (applyReset s).env.ref.rtc.variant = s.env.ref.rtc.variant ∧
    (applyReset s).env.ref.ee.variant = s.env.ref.ee.variant

/-! ## Sequencing, ordering and whole-machine rules -/

/-- R96: an accepting write makes no bus call and touches neither the environment nor the host's side; of the data registers
only DOUT may change, and only by ENC and DEC. -/
def Obligations.AcceptanceMakesNoBusCall : Prop :=
  ∀ (i : Instr) (s t : State), exec i s = .next t →
    t.trace = s.trace ∧ t.env = s.env ∧ t.params = s.params ∧ t.program = s.program ∧ t.reads = s.reads ∧
    t.script = s.script ∧ t.rule = s.rule ∧ t.draws = s.draws ∧ t.settleTimer = s.settleTimer ∧
    (∀ a : Nat, readByte t.env.ref.rtc.mem a = readByte s.env.ref.rtc.mem a) ∧
    (∀ a : Nat, readByte t.env.ref.ee.mem a = readByte s.env.ref.ee.mem a) ∧
    (∀ r : Reg, r ≠ .dout → regGet t.regs r = regGet s.regs r) ∧
    (i ≠ .enc → i ≠ .dec → t.regs = s.regs)

/-- R103: what completes inside the accepting write. -/
def Obligations.ImmediateCommandsCompleteInTheWrite : Prop :=
  ∀ (c : Byte) (s : State), Ready s →
    ((c = 0x00 ∨ c = 0x10 ∨ c = 0x11 ∨ commandByteWellFormed c = false) ∨
      (s.params.checkRange = true ∧ ((c = 0x20 ∧ timeInRange (timeRecord s.regs) = false) ∨
        ((c = 0x30 ∨ c = 0x31) ∧ eeInRange (eeAddress s.regs) = false)))) →
    ∃ t, hostAccess (.write 0x0 c) s = .next t ∧ t.status.busy = false ∧ t.status.done = true ∧ t.seq = .idle

/-- R112: the order of the checks: BUSY, then the command byte, then the operands. -/
def Obligations.ChecksAreMadeInOrder : Prop :=
  (∀ (c : Byte) (s : State), s.status.busy = true →
    hostAccess (.write 0x0 c) s = .next { s with status := { s.status with errBusy := true } }) ∧
  (∀ (c : Byte) (s : State), Ready s → commandByteWellFormed c = false →
    hostAccess (.write 0x0 c) s = .next { s with status := illegalStatus }) ∧
  (∀ s : State, Ready s → s.params.checkRange = true → timeInRange (timeRecord s.regs) = false →
    hostAccess (.write 0x0 0x20) s = .next { s with status := rangeErrorStatus }) ∧
  (∀ (s : State) (c : Byte), Ready s → s.params.checkRange = true → eeInRange (eeAddress s.regs) = false →
    (c = 0x30 ∨ c = 0x31) → hostAccess (.write 0x0 c) s = .next { s with status := rangeErrorStatus })

/-- R99, R46, R47: a host access adds no event to the trace; a sequencer step adds exactly one while a command runs; reset
leaves the trace empty. -/
def Obligations.OneBusEventPerSequencerStep : Prop :=
  (∀ (a : HostAccess) (s t : State), hostAccess a s = .next t → t.trace = s.trace ∧ t.env = s.env) ∧
  (∀ (s t : State) (op : SeqOp) (k : Nat), s.seq = .run op k → seqStep s = .next t →
    (∃ e, t.trace = s.trace ++ [e]) ∧ (t.seq = .run op (k + 1) ∨ t.seq = .idle)) ∧
  (∀ s t : State, s.seq = .idle → seqStep s = .next t → t = s) ∧
  (∀ s : State, (applyReset s).trace = [])

/-- R48, R93: until a command completes, the sequencer changes no data register and not DONE; a completion sets DONE and
clears BUSY. -/
def Obligations.ResultsCommitOnlyAtCompletion : Prop :=
  ∀ (s t : State) (op : SeqOp) (k : Nat), s.seq = .run op k → seqStep s = .next t →
    (t.seq = .run op (k + 1) ∧ t.regs = s.regs ∧ t.status = s.status) ∨
    (t.seq = .idle ∧ t.status.done = true ∧ t.status.busy = false ∧ t.status.errBusy = s.status.errBusy ∧
      (∀ r : Reg, op = .rtcw ∨ op = .eew → regGet t.regs r = regGet s.regs r) ∧
      (∀ r : Reg, op = .eer → r ≠ .eeData → regGet t.regs r = regGet s.regs r) ∧
      regGet t.regs .din = regGet s.regs .din ∧ regGet t.regs .dout = regGet s.regs .dout ∧
      regGet t.regs .eeAddrH = regGet s.regs .eeAddrH ∧ regGet t.regs .eeAddrL = regGet s.regs .eeAddrL ∧
      (op = .rtcr → regGet t.regs .eeData = regGet s.regs .eeData))

/-- R124: when a result register holds its command's result: after ENC unless RangeError left DOUT as it was, after DEC, after
RTCR and EER unless the step that ended them left the registers as they were; never while a sequenced command runs. -/
def Obligations.ResultsAreValidOnlyAfterSuccess : Prop :=
  (∀ s t : State, Ready s → exec .enc s = .next t →
    (resultsValid .enc t.status = true ↔ (s.params.checkRange = true → (regVal s.regs .din).toNat ≤ 99)) ∧
    (resultsValid .enc t.status = false → t.regs = s.regs)) ∧
  (∀ s t : State, Ready s → exec .dec s = .next t → resultsValid .dec t.status = true) ∧
  (∀ (s t : State) (op : SeqOp) (k : Nat) (i : Instr), Inv s → s.seq = .run op k → seqStep s = .next t → t.seq ≠ .idle →
    resultsValid i t.status = false ∧ t.regs = s.regs) ∧
  (∀ (s t : State) (k : Nat), Inv s → s.seq = .run .rtcr k → seqStep s = .next t → t.seq = .idle →
    resultsValid .rtcr t.status = false → t.regs = s.regs) ∧
  (∀ (s t : State) (k : Nat), Inv s → s.seq = .run .eer k → seqStep s = .next t → t.seq = .idle →
    (resultsValid .eer t.status = true ↔ ∃ b, t.trace = s.trace ++ [.rd b] ∧ t.regs = regSet s.regs .eeData b) ∧
    (resultsValid .eer t.status = false → t.regs = s.regs))

/-- R97, R98: while a command runs, a host access can change ERR_BUSY and the host's record of reads, and nothing else. -/
def Obligations.HostCannotDisturbARunningCommand : Prop :=
  ∀ (a : HostAccess) (s t : State), s.status.busy = true → hostAccess a s = .next t →
    t = { s with status := { s.status with errBusy := t.status.errBusy }, reads := t.reads } ∧
    (s.status.errBusy = true → t.status.errBusy = true)

/-- R111: with the sequencer never taking a step (a bus call that does not return), no host access ends the command: BUSY stays
1, however many accesses are made. -/
def Obligations.HostAccessesNeverEndARunningCommand : Prop :=
  ∀ (as : List HostAccess) (s : State), s.status.busy = true →
    ∃ t, hostAccesses as s = .next t ∧ t.status.busy = true ∧ t.seq = s.seq ∧ t.regs = s.regs ∧ t.trace = s.trace ∧
      t.env = s.env ∧ t.latch = s.latch

/-- R99, R40: a host access and a sequencer step that does not end the command can be made in either order. -/
def Obligations.HostAndSequencerStepsCommute : Prop :=
  ∀ (a : HostAccess) (s t u v : State), Inv s → s.status.busy = true → hostAccess a s = .next t → seqStep t = .next u →
    seqStep s = .next v → v.seq ≠ .idle → hostAccess a v = .next u

/-- R26: DOUT changes only by reset and by an accepted ENC or DEC. -/
def Obligations.OnlyEncAndDecWriteDout : Prop :=
  ∀ (t : Turn) (s s' : State), takeTurn t s = .next s' → s'.regs.dout ≠ s.regs.dout →
    t = .reset ∨ (t = .host ∧ s.status.busy = false ∧
      ∃ (c : Byte) (rest : List HostOp), s.program = .access (.write 0x0 c) :: rest ∧ (decode c = .ok .enc ∨ decode c = .ok .dec))

/-- R82, R99 through `step` itself: RTCW placed as the host's next access, under the eager schedule, is done after eleven steps:
the accepting write and ten sequencer steps. -/
def Obligations.ElevenEagerStepsRunRtcw : Prop :=
  ∀ s : State, Ready s → s.script = [] → s.rule = .eager →
    (s.params.checkRange = true → timeInRange (timeRecord s.regs) = true) →
    ∃ u, core.run 11 (s.withFetchWord 8 0x20) = .next u ∧ u.status = doneStatus ∧ u.seq = .idle ∧ u.regs = s.regs ∧
      u.program = s.program ∧ u.trace.length = s.trace.length + 10

/-- R8, R9: no step changes the build parameters. -/
def Obligations.NoStepChangesTheBuildParameters : Prop :=
  ∀ s t : State, step s = .next t → t.params = s.params

/-! ## Reset -/

/-- R37, R38: the state after reset, for what the spec gives; that no data register has been written. -/
def Obligations.ResetStateAsSpecified : Prop :=
  hostRead State.reset 0x1 = 0x00 ∧ hostRead State.reset 0x0 = 0x00 ∧ hostRead State.reset 0xE = 0x00 ∧
  hostRead State.reset 0xF = 0x00 ∧ State.reset.seq = .idle ∧ State.reset.trace = [] ∧
  (∀ r : Reg, (regGet State.reset.regs r).written = false)

/-- R119: the reset action, from any state. -/
def Obligations.ResetAbandonsTheCommand : Prop :=
  ∀ s : State,
    (applyReset s).status = .zero ∧ statusByte (applyReset s).status = 0x00 ∧ (applyReset s).seq = .idle ∧
    (∀ r : Reg, (regGet (applyReset s).regs r).written = false) ∧ (applyReset s).trace = [] ∧
    (applyReset s).params = s.params ∧ (s.seq = .idle → (applyReset s).env = s.env)

/-! ## The invariant -/

/-- The invariant holds after reset. -/
def Obligations.InvariantHoldsAtReset : Prop := Inv State.reset

/-- R18, R19, R20, R24, R32, R54, R98, R109: every step keeps the invariant. -/
def Obligations.EveryStepKeepsTheInvariant : Prop :=
  ∀ s t : State, Inv s → step s = .next t → Inv t

/-- From a state that meets the invariant the machine never stops. That a read of an unwritten register does not stop it is the
model's choice (log 1, DESIGN CHOICE); its one fault is log 16's. -/
def Obligations.MachineNeverStops : Prop :=
  ∀ s : State, Inv s → ∃ t, step s = .next t

/-- R109, R18, R19, R20: what the invariant says of STATUS. -/
def Obligations.ErrorBitsExcludeEachOther : Prop :=
  ∀ s : State, Inv s →
    ¬(s.status.busy = true ∧ s.status.done = true) ∧
    ¬(s.status.errRange = true ∧ s.status.noData = true) ∧ ¬(s.status.errRange = true ∧ s.status.errIll = true) ∧
    ¬(s.status.noData = true ∧ s.status.errIll = true) ∧
    (s.status.errRange = true → s.params.checkRange = true) ∧
    (s.status.busy = true → s.status.errRange = false ∧ s.status.noData = false ∧ s.status.errIll = false) ∧
    (s.status.busy = true ↔ s.seq ≠ .idle)

/-- R109: errors are precise. A RangeError or an IllegalCommand, raised by the accepting write, changes STATUS and nothing else.
A NoData, raised by a sequencer step, changes STATUS and SEQ, leaves its AVAIL(false) in the trace, and no device byte or
register. No other sequencer step leaves an error that was not there. -/
def Obligations.ErrorsArePrecise : Prop :=
  (∀ (c : Byte) (s t : State), Ready s → hostAccess (.write 0x0 c) s = .next t →
    (t.status.errRange = true ∨ t.status.errIll = true ∨ t.status.noData = true) →
    t = { s with status := t.status } ∧ (t.status = rangeErrorStatus ∨ t.status = illegalStatus)) ∧
  (∀ s t : State, Inv s → s.seq ≠ .idle → seqStep s = .next t → t.status.noData = true →
    t = { s with
      status := { s.status with busy := false, done := true, noData := true }
      seq := .idle
      trace := s.trace ++ [.avail false]
      env := t.env
      draws := s.draws + 1 } ∧
    t.env.ref = s.env.ref) ∧
  (∀ s t : State, Inv s → seqStep s = .next t →
    t.status.errRange = s.status.errRange ∧ t.status.errIll = s.status.errIll ∧ t.status.errBusy = s.status.errBusy)
end

