-- ==== Sys2Proof/Laws/Decode.lean ====
section
/-! SUPPORT. What the decoder and the register map answer. -/

namespace Sys2Proof

/-- A command byte decodes to its command, and any other byte is refused with its own name. -/
theorem decode_spec (b : Byte) :
    decode b = if b = 0x00 then .ok .nop else if b = 0x10 then .ok .enc else if b = 0x11 then .ok .dec
      else if b = 0x20 then .ok .rtcw else if b = 0x21 then .ok .rtcr else if b = 0x30 then .ok .eew
      else if b = 0x31 then .ok .eer else .error (.illegalCommand b) := by
  revert b; decide

/-- CMD stands at offset 0 alone. -/
theorem portOf_eq_cmd (o : Offset) : portOf o = .cmd ↔ o = 0x0 := by
  revert o; decide

@[simp] theorem portOf_regOffset (r : Reg) : portOf (regOffset r) = .data r := by
  cases r <;> rfl

/-- DOUT stands at offset 3 alone. -/
theorem portOf_eq_dout (o : Offset) : portOf o = .data .dout ↔ o = 0x3 := by
  revert o; decide

/-- No two rows of the opcode table accept one byte. -/
theorem opcodeTable_disjoint : opcodeTable.Pairwise fun r q => r.pattern ≠ q.pattern := by
  decide

/-- R59: the fields of a read's word. -/
theorem encodeAccess_read_fields (o : Offset) :
    (encodeAccess (.read o)).getLsbD 15 = false ∧ (encodeAccess (.read o)).extractLsb' 12 3 = 0#3 ∧
    (encodeAccess (.read o)).extractLsb' 8 4 = o ∧ (encodeAccess (.read o)).extractLsb' 0 8 = 0#8 := by
  revert o; decide

/-- R59: the bits of a write's word. -/
theorem getLsbD_encodeAccess_write (o : Offset) (v : Byte) (i : Nat) :
    (encodeAccess (.write o v)).getLsbD i =
      if i < 8 then v.getLsbD i else if i < 12 then o.getLsbD (i - 8) else (0x8#4).getLsbD (i - 12) := by
  have h : (encodeAccess (.write o v)).getLsbD i = ((0x8#4 ++ o) ++ v : BitVec (4 + 4 + 8)).getLsbD i := rfl
  rw [h, BitVec.getLsbD_append, BitVec.getLsbD_append]
  by_cases h8 : i < 8
  · rw [if_pos h8, if_pos h8]
  · rw [if_neg h8, if_neg h8]
    by_cases h12 : i < 12
    · rw [if_pos h12, if_pos (by omega)]
    · rw [if_neg h12, if_neg (by omega), Nat.sub_sub]

/-- R59: the fields of a write's word. -/
theorem encodeAccess_write_fields (o : Offset) (v : Byte) :
    (encodeAccess (.write o v)).getLsbD 15 = true ∧ (encodeAccess (.write o v)).extractLsb' 12 3 = 0#3 ∧
    (encodeAccess (.write o v)).extractLsb' 8 4 = o ∧ (encodeAccess (.write o v)).extractLsb' 0 8 = v := by
  refine ⟨?_, ?_, ?_, ?_⟩
  · rw [getLsbD_encodeAccess_write]; rfl
  · ext i hi
    rw [BitVec.getElem_extractLsb', getLsbD_encodeAccess_write, if_neg (by omega), if_neg (by omega)]
    revert i; decide
  · ext i hi
    rw [BitVec.getElem_extractLsb', getLsbD_encodeAccess_write, if_neg (by omega), if_pos (by omega), Nat.add_sub_cancel_left]
    exact BitVec.getLsbD_eq_getElem hi
  · ext i hi
    rw [BitVec.getElem_extractLsb', getLsbD_encodeAccess_write, if_pos (by omega), Nat.zero_add]
    exact BitVec.getLsbD_eq_getElem hi

/-- A 16-bit word is given by its direction, its bits 14:12, its offset and its data. -/
theorem accessWord_ext {w x : AccessWord} (h15 : w.getLsbD 15 = x.getLsbD 15)
    (h12 : w.extractLsb' 12 3 = x.extractLsb' 12 3) (h8 : w.extractLsb' 8 4 = x.extractLsb' 8 4)
    (h0 : w.extractLsb' 0 8 = x.extractLsb' 0 8) : w = x := by
  have field : ∀ {s n : Nat}, w.extractLsb' s n = x.extractLsb' s n → ∀ j < n, w.getLsbD (s + j) = x.getLsbD (s + j) := by
    intro s n h j hj
    have := congrArg (fun v => v.getLsbD j) h
    simpa [BitVec.getLsbD_extractLsb', hj] using this
  refine BitVec.eq_of_getLsbD_eq fun i hi => ?_
  obtain h | h | h | rfl : i < 8 ∨ (8 ≤ i ∧ i < 12) ∨ (12 ≤ i ∧ i < 15) ∨ i = 15 := by omega
  · simpa using field h0 i h
  · have := field h8 (i - 8) (by omega)
    rwa [show 8 + (i - 8) = i by omega] at this
  · have := field h12 (i - 12) (by omega)
    rwa [show 12 + (i - 12) = i by omega] at this
  · exact h15

end Sys2Proof
end

