-- ==== Sys2Proof/Laws/Memory.lean ====
section
/-! SUPPORT. The laws of the devices' bytes: a read after a write, and the canonical form kept by every operation. -/

namespace Sys2Proof.Machine

/-- A write leaves every other address alone. -/
theorem readByte_writeByte_other (m : Memory) {a b : Nat} (v : Byte) (h : b ≠ a) :
    readByte (writeByte m a v) b = readByte m b := by
  induction m with
  | nil =>
    unfold writeByte
    split <;> simp [readByte, h]
  | cons c m ih =>
    obtain ⟨k, w⟩ := c
    unfold writeByte
    split
    · split <;> simp [readByte, h]
    · split
      · rename_i hk
        subst hk
        split <;> simp [readByte, h]
      · simp [readByte, ih]

/-- In canonical form from `lo` on, an address below `lo` is not listed. -/
theorem readByte_below {m : Memory} {lo a : Nat} (hw : wfFrom lo m = true) (ha : a < lo) :
    readByte m a = unlistedByte := by
  induction m generalizing lo with
  | nil => rfl
  | cons c m ih =>
    obtain ⟨k, w⟩ := c
    simp only [wfFrom, Bool.and_eq_true, decide_eq_true_eq] at hw
    have hne : a ≠ k := by omega
    simp [readByte, hne, ih hw.2 (by omega)]

theorem readByte_writeByte_from {m : Memory} {lo : Nat} (a : Nat) (v : Byte) (hw : wfFrom lo m = true) :
    readByte (writeByte m a v) a = v := by
  induction m generalizing lo with
  | nil =>
    unfold writeByte
    split
    · rename_i h; simp [readByte, h]
    · simp [readByte]
  | cons c m ih =>
    obtain ⟨k, w⟩ := c
    simp only [wfFrom, Bool.and_eq_true, decide_eq_true_eq] at hw
    unfold writeByte
    split
    · rename_i hlt
      have hne : a ≠ k := by omega
      split
      · rename_i h; simp [readByte, hne, h, readByte_below hw.2 (by omega : a < k + 1)]
      · simp [readByte]
    · split
      · rename_i hk
        subst hk
        split
        · rename_i h; simp [h, readByte_below hw.2 (Nat.lt_succ_self a)]
        · simp [readByte]
      · rename_i hne
        simp [readByte, hne, ih hw.2]

/-- A read after a write to the same address gives the byte written. -/
theorem readByte_writeByte_same {m : Memory} (a : Nat) (v : Byte) (hw : m.wf = true) :
    readByte (writeByte m a v) a = v :=
  readByte_writeByte_from a v hw

theorem wfFrom_mono {m : Memory} {lo lo' : Nat} (h : lo' ≤ lo) (hw : wfFrom lo m = true) : wfFrom lo' m = true := by
  cases m with
  | nil => rfl
  | cons c m =>
    obtain ⟨k, w⟩ := c
    simp only [wfFrom, Bool.and_eq_true, decide_eq_true_eq] at hw ⊢
    exact ⟨⟨by omega, hw.1.2⟩, hw.2⟩

theorem wfFrom_writeByte {m : Memory} {lo : Nat} (a : Nat) (v : Byte) (ha : lo ≤ a) (hw : wfFrom lo m = true) :
    wfFrom lo (writeByte m a v) = true := by
  induction m generalizing lo with
  | nil =>
    unfold writeByte
    split <;> simp_all [wfFrom]
  | cons c m ih =>
    obtain ⟨k, w⟩ := c
    simp only [wfFrom, Bool.and_eq_true, decide_eq_true_eq] at hw
    unfold writeByte
    split
    · rename_i hlt
      split
      · simp [wfFrom, hw]
      · rename_i hv
        simp only [wfFrom, Bool.and_eq_true, decide_eq_true_eq]
        exact ⟨⟨ha, hv⟩, ⟨by omega, hw.1.2⟩, hw.2⟩
    · split
      · split
        · exact wfFrom_mono (by omega) hw.2
        · rename_i hv
          simp only [wfFrom, Bool.and_eq_true, decide_eq_true_eq]
          exact ⟨⟨hw.1.1, hv⟩, hw.2⟩
      · simp only [wfFrom, Bool.and_eq_true, decide_eq_true_eq]
        exact ⟨hw.1, ih (by omega) hw.2⟩

/-- Storing a byte keeps the canonical form. -/
theorem wf_writeByte {m : Memory} (a : Nat) (v : Byte) (hw : m.wf = true) : (writeByte m a v).wf = true :=
  wfFrom_writeByte a v (Nat.zero_le a) hw

/-- Storing a byte inside an address space lists no address outside it. -/
theorem below_writeByte {m : Memory} {n a : Nat} (v : Byte) (ha : a < n) (hb : m.below n = true) :
    (writeByte m a v).below n = true := by
  induction m with
  | nil =>
    unfold writeByte
    split <;> simp_all [Memory.below]
  | cons c m ih =>
    obtain ⟨k, w⟩ := c
    simp only [Memory.below, List.all_cons, Bool.and_eq_true, decide_eq_true_eq] at hb ih ⊢
    unfold writeByte
    split
    · split
      · simp only [List.all_cons, Bool.and_eq_true, decide_eq_true_eq]
        exact hb
      · simp only [List.all_cons, Bool.and_eq_true, decide_eq_true_eq]
        exact ⟨ha, hb⟩
    · split
      · split
        · exact hb.2
        · simp only [List.all_cons, Bool.and_eq_true, decide_eq_true_eq]
          exact hb
      · simp only [List.all_cons, Bool.and_eq_true, decide_eq_true_eq]
        exact ⟨hb.1, ih hb.2⟩

theorem wf_writeBytes {m : Memory} (p : Byte) (bs : List Byte) (hw : m.wf = true) : (writeBytes m p bs).1.wf = true := by
  induction bs generalizing m p with
  | nil => exact hw
  | cons b bs ih => exact ih (p + 1) (wf_writeByte p.toNat b hw)

theorem below_writeBytes {m : Memory} (p : Byte) (bs : List Byte) (hb : m.below 256 = true) :
    (writeBytes m p bs).1.below 256 = true := by
  induction bs generalizing m p with
  | nil => exact hb
  | cons b bs ih => exact ih (p + 1) (below_writeByte b p.isLt hb)

theorem wf_writeCells {m : Memory} (ws : List (EeCell × Byte)) (hw : m.wf = true) : (writeCells m ws).wf = true := by
  induction ws generalizing m with
  | nil => exact hw
  | cons w ws ih => exact ih (wf_writeByte w.1.toNat w.2 hw)

theorem below_writeCells {m : Memory} (ws : List (EeCell × Byte)) (hb : m.below eeSize = true) :
    (writeCells m ws).below eeSize = true := by
  induction ws generalizing m with
  | nil => exact hb
  | cons w ws ih => exact ih (below_writeByte w.2 w.1.isLt hb)

/-- The reference devices after reset are in canonical form. -/
theorem devicesWf_reset : DevicesWf State.reset.env.ref := ⟨rfl, rfl, rfl, rfl⟩

end Sys2Proof.Machine
end

