-- ==== Sys2Proof/Laws/Devices.lean ====
section
/-! SUPPORT. What a bus call can answer, and that the environment keeps its devices' canonical form. -/

namespace Sys2Proof.Machine

/-- Whether an event is one that the call can make: its own event, with any answer. -/
def eventOf (c : BusCall) (ev : BusEvent) : Prop :=
  match c with
  | .beginTxn id => ev = .beginTxn id
  | .write b => ev = .wr b
  | .endTxn => ev = .endTxn
  | .request id n => ev = .req id n
  | .avail => ∃ r, ev = .avail r
  | .read => ∃ b, ev = .rd b
  | .settle => ev = .settle

/-- R13: a call records its own event, in either kind of environment. -/
theorem eventOf_envCall (n : Nat) (e : BusEnv) (c : BusCall) : eventOf c (envCall n e c).1 := by
  unfold envCall
  split
  · cases c <;> simp only [eventOf, freeCall]
    · split <;> exact ⟨_, rfl⟩
    · split <;> exact ⟨_, rfl⟩
  · cases c <;> simp only [eventOf, refCall]
    · split <;> rfl
    · split <;> rfl
    · exact ⟨_, rfl⟩
    · split <;> exact ⟨_, rfl⟩

theorem envCall_kind (n : Nat) (e : BusEnv) (c : BusCall) : (envCall n e c).2.kind = e.kind := by
  unfold envCall
  split
  · cases c <;> simp only [freeCall] <;> split <;> rfl
  · rfl

theorem devicesWf_rtc {b : RefBus} (h : DevicesWf b) {r : RefRtc} (hw : r.mem.wf = true) (hb : r.mem.below 256 = true)
    (o : Option (DeviceId × List Byte)) (q : List Byte) : DevicesWf { b with openTxn := o, queue := q, rtc := r } :=
  ⟨hw, hb, h.eeWf, h.eeBelow⟩

theorem devicesWf_ee {b : RefBus} (h : DevicesWf b) {e : RefEeprom} (hw : e.mem.wf = true) (hb : e.mem.below eeSize = true)
    (o : Option (DeviceId × List Byte)) (q : List Byte) : DevicesWf { b with openTxn := o, queue := q, ee := e } :=
  ⟨h.rtcWf, h.rtcBelow, hw, hb⟩

/-- The bytes of an EEPROM are canonical and inside its address space. -/
def EeMemOk (m : Memory) : Prop := m.wf = true ∧ m.below eeSize = true

/-- The bytes of an RTC are canonical and inside its address space. -/
def RtcMemOk (m : Memory) : Prop := m.wf = true ∧ m.below 256 = true

theorem eeMemOk_disturb (n : Nat) (c : Bool) {e : RefEeprom} (h : EeMemOk e.mem) : EeMemOk (eeDisturb n c e).mem :=
  ⟨wf_writeCells _ h.1, below_writeCells _ h.2⟩

theorem eeMemOk_write {m : Memory} (a : EeCell) (d : Byte) (h : EeMemOk m) : EeMemOk (writeByte m a.toNat d) :=
  ⟨wf_writeByte _ _ h.1, below_writeByte d a.isLt h.2⟩

theorem rtcMemOk_transaction {r : RefRtc} (bs : List Byte) (h : RtcMemOk r.mem) : RtcMemOk (rtcTransaction r bs).mem := by
  unfold rtcTransaction
  split
  · exact h
  all_goals
    split
    · exact h
    · exact ⟨wf_writeBytes _ _ h.1, below_writeBytes _ _ h.2⟩

theorem eeMemOk_transaction (n : Nat) {e : RefEeprom} (bs : List Byte) (h : EeMemOk e.mem) :
    EeMemOk (eeTransaction n e bs).mem := by
  unfold eeTransaction
  split
  · exact h
  all_goals
    split
    · exact eeMemOk_disturb n _ h
    · split
      · split
        · exact eeMemOk_disturb n _ h
        · exact h
      · split
        · exact eeMemOk_disturb n _ h
        · exact h
      · exact eeMemOk_disturb n _ h

theorem eeMemOk_settle {e : RefEeprom} (h : EeMemOk e.mem) : EeMemOk (eeSettle e).mem := by
  unfold eeSettle
  split
  · exact eeMemOk_write _ _ h
  · exact h

theorem eeMemOk_request (n : Nat) {e : RefEeprom} (cnt : Nat) (h : EeMemOk e.mem) : EeMemOk (eeRequest n e cnt).2.mem := by
  unfold eeRequest
  split
  · exact h
  all_goals
    split
    · exact eeMemOk_disturb n _ h
    · split <;> exact h

theorem devicesWf_deliver (n : Nat) {b : RefBus} (id : DeviceId) (bs : List Byte) (h : DevicesWf b) :
    DevicesWf (deliver n b id bs) := by
  have hr := rtcMemOk_transaction bs ⟨h.rtcWf, h.rtcBelow⟩
  have he := eeMemOk_transaction n bs ⟨h.eeWf, h.eeBelow⟩
  unfold deliver
  split
  · exact ⟨hr.1, hr.2, h.eeWf, h.eeBelow⟩
  · split
    · exact ⟨h.rtcWf, h.rtcBelow, he.1, he.2⟩
    · exact ⟨h.rtcWf, h.rtcBelow, h.eeWf, h.eeBelow⟩

theorem devicesWf_request (n : Nat) {b : RefBus} (id : DeviceId) (cnt : Nat) (h : DevicesWf b) :
    DevicesWf (request n b id cnt) := by
  have he := eeMemOk_request n cnt ⟨h.eeWf, h.eeBelow⟩
  unfold request
  split
  · exact ⟨h.rtcWf, h.rtcBelow, h.eeWf, h.eeBelow⟩
  · split
    · exact ⟨h.rtcWf, h.rtcBelow, he.1, he.2⟩
    · exact ⟨h.rtcWf, h.rtcBelow, h.eeWf, h.eeBelow⟩

theorem devicesWf_begin (n : Nat) {b : RefBus} (id : DeviceId) (h : DevicesWf b) : DevicesWf (beginTransaction n b id) := by
  unfold beginTransaction
  split
  · exact ⟨h.rtcWf, h.rtcBelow, h.eeWf, h.eeBelow⟩
  · split
    · rename_i old bytes _ _
      have d := devicesWf_deliver n old bytes h
      exact ⟨d.rtcWf, d.rtcBelow, d.eeWf, d.eeBelow⟩
    · exact ⟨h.rtcWf, h.rtcBelow, h.eeWf, h.eeBelow⟩

theorem devicesWf_refCall (n : Nat) {b : RefBus} (c : BusCall) (h : DevicesWf b) : DevicesWf (refCall n b c).2 := by
  have hs := eeMemOk_settle (e := b.ee) ⟨h.eeWf, h.eeBelow⟩
  cases c <;> simp only [refCall]
  case beginTxn id => exact devicesWf_begin n id h
  case write => split <;> exact ⟨h.rtcWf, h.rtcBelow, h.eeWf, h.eeBelow⟩
  case endTxn => split <;> first | exact devicesWf_deliver n _ _ h | exact h
  case request id cnt => exact devicesWf_request n id cnt h
  case avail => exact h
  case read => split <;> exact ⟨h.rtcWf, h.rtcBelow, h.eeWf, h.eeBelow⟩
  case settle => exact ⟨h.rtcWf, h.rtcBelow, hs.1, hs.2⟩

/-- A bus call keeps the devices' bytes canonical. -/
theorem devicesWf_envCall (n : Nat) {e : BusEnv} (c : BusCall) (h : DevicesWf e.ref) : DevicesWf (envCall n e c).2.ref := by
  unfold envCall
  split
  · cases c <;> simp only [freeCall] <;> first | exact h | (split <;> exact h)
  · exact devicesWf_refCall n c h

theorem rtcMemOk_abandon (n : Nat) (op : SeqOp) {r : RefRtc} (h : RtcMemOk r.mem) : RtcMemOk (rtcAbandon n op r).mem := by
  unfold rtcAbandon
  split
  · exact h
  all_goals
    split
    · exact ⟨wf_writeBytes _ _ h.1, below_writeBytes _ _ h.2⟩
    all_goals exact h

theorem eeMemOk_oldOrNew (n : Nat) {m : Memory} (a : EeCell) (d : Byte) (h : EeMemOk m) : EeMemOk (eeOldOrNew n m a d) := by
  unfold eeOldOrNew
  split
  · exact eeMemOk_write a d h
  · exact h

theorem eeMemOk_abandon (n : Nat) (op : SeqOp) (l : Latch) {e : RefEeprom} (h : EeMemOk e.mem) :
    EeMemOk (eeAbandon n op l e).mem := by
  unfold eeAbandon
  split
  · exact h
  all_goals
    split
    · exact eeMemOk_disturb n _ h
    · split
      · exact eeMemOk_oldOrNew n _ _ h
      all_goals exact h

theorem eeMemOk_abandonSettle (n : Nat) {e : RefEeprom} (h : EeMemOk e.mem) : EeMemOk (eeAbandonSettle n e).mem := by
  unfold eeAbandonSettle
  split
  · exact eeMemOk_oldOrNew n _ _ h
  · exact h

theorem devicesWf_refAbandon (n : Nat) (op : SeqOp) (k : Nat) (l : Latch) {b : RefBus} (h : DevicesWf b) :
    DevicesWf (refAbandon n op k l b) := by
  have hr := rtcMemOk_abandon n op (r := b.rtc) ⟨h.rtcWf, h.rtcBelow⟩
  have he := eeMemOk_abandon n op l (e := b.ee) ⟨h.eeWf, h.eeBelow⟩
  have hs := eeMemOk_abandonSettle n (e := b.ee) ⟨h.eeWf, h.eeBelow⟩
  unfold refAbandon
  split
  · cases op
    · exact ⟨hr.1, hr.2, h.eeWf, h.eeBelow⟩
    · exact ⟨hr.1, hr.2, h.eeWf, h.eeBelow⟩
    · exact ⟨h.rtcWf, h.rtcBelow, he.1, he.2⟩
    · exact ⟨h.rtcWf, h.rtcBelow, he.1, he.2⟩
  · split
    · exact ⟨h.rtcWf, h.rtcBelow, hs.1, hs.2⟩
    · exact h

/-- A reset keeps the devices' bytes canonical. -/
theorem devicesWf_envReset (n : Nat) (q : Seq) (l : Latch) {e : BusEnv} (h : DevicesWf e.ref) :
    DevicesWf (envReset n q l e).ref := by
  unfold envReset
  split
  · exact h
  · split
    · exact h
    · exact devicesWf_refAbandon n _ _ l h

end Sys2Proof.Machine
end

