-- ==== Sys2Proof/Laws/State.lean ====
section
/-! SUPPORT. One lemma per field per state update, and the laws of the register file and of STATUS. -/

namespace Sys2Proof.Machine

/-! ### dropWrite -/

@[simp] theorem dropWrite_params (s : State) : (dropWrite s).params = s.params := rfl
@[simp] theorem dropWrite_status (s : State) : (dropWrite s).status = statusBusyViolation s.status := rfl
@[simp] theorem dropWrite_regs (s : State) : (dropWrite s).regs = s.regs := rfl
@[simp] theorem dropWrite_seq (s : State) : (dropWrite s).seq = s.seq := rfl
@[simp] theorem dropWrite_rbuf (s : State) : (dropWrite s).rbuf = s.rbuf := rfl
@[simp] theorem dropWrite_rcnt (s : State) : (dropWrite s).rcnt = s.rcnt := rfl
@[simp] theorem dropWrite_latch (s : State) : (dropWrite s).latch = s.latch := rfl
@[simp] theorem dropWrite_settleTimer (s : State) : (dropWrite s).settleTimer = s.settleTimer := rfl
@[simp] theorem dropWrite_trace (s : State) : (dropWrite s).trace = s.trace := rfl
@[simp] theorem dropWrite_env (s : State) : (dropWrite s).env = s.env := rfl
@[simp] theorem dropWrite_program (s : State) : (dropWrite s).program = s.program := rfl
@[simp] theorem dropWrite_reads (s : State) : (dropWrite s).reads = s.reads := rfl
@[simp] theorem dropWrite_script (s : State) : (dropWrite s).script = s.script := rfl
@[simp] theorem dropWrite_rule (s : State) : (dropWrite s).rule = s.rule := rfl
@[simp] theorem dropWrite_draws (s : State) : (dropWrite s).draws = s.draws := rfl

/-! ### complete -/

@[simp] theorem complete_params (ws : List (Reg × Byte)) (s : State) : (complete ws s).params = s.params := rfl
@[simp] theorem complete_status (ws : List (Reg × Byte)) (s : State) : (complete ws s).status = statusComplete s.status := rfl
@[simp] theorem complete_regs (ws : List (Reg × Byte)) (s : State) : (complete ws s).regs = regSetAll s.regs ws := rfl
@[simp] theorem complete_seq (ws : List (Reg × Byte)) (s : State) : (complete ws s).seq = .idle := rfl
@[simp] theorem complete_rbuf (ws : List (Reg × Byte)) (s : State) : (complete ws s).rbuf = s.rbuf := rfl
@[simp] theorem complete_rcnt (ws : List (Reg × Byte)) (s : State) : (complete ws s).rcnt = s.rcnt := rfl
@[simp] theorem complete_latch (ws : List (Reg × Byte)) (s : State) : (complete ws s).latch = s.latch := rfl
@[simp] theorem complete_settleTimer (ws : List (Reg × Byte)) (s : State) : (complete ws s).settleTimer = s.settleTimer := rfl
@[simp] theorem complete_trace (ws : List (Reg × Byte)) (s : State) : (complete ws s).trace = s.trace := rfl
@[simp] theorem complete_env (ws : List (Reg × Byte)) (s : State) : (complete ws s).env = s.env := rfl
@[simp] theorem complete_program (ws : List (Reg × Byte)) (s : State) : (complete ws s).program = s.program := rfl
@[simp] theorem complete_reads (ws : List (Reg × Byte)) (s : State) : (complete ws s).reads = s.reads := rfl
@[simp] theorem complete_script (ws : List (Reg × Byte)) (s : State) : (complete ws s).script = s.script := rfl
@[simp] theorem complete_rule (ws : List (Reg × Byte)) (s : State) : (complete ws s).rule = s.rule := rfl
@[simp] theorem complete_draws (ws : List (Reg × Byte)) (s : State) : (complete ws s).draws = s.draws := rfl

/-! ### raiseError -/

@[simp] theorem raiseError_params (e : CommandError) (s : State) : (raiseError e s).params = s.params := rfl
@[simp] theorem raiseError_status (e : CommandError) (s : State) : (raiseError e s).status = statusError e s.status := rfl
@[simp] theorem raiseError_regs (e : CommandError) (s : State) : (raiseError e s).regs = s.regs := rfl
@[simp] theorem raiseError_seq (e : CommandError) (s : State) : (raiseError e s).seq = .idle := rfl
@[simp] theorem raiseError_rbuf (e : CommandError) (s : State) : (raiseError e s).rbuf = s.rbuf := rfl
@[simp] theorem raiseError_rcnt (e : CommandError) (s : State) : (raiseError e s).rcnt = s.rcnt := rfl
@[simp] theorem raiseError_latch (e : CommandError) (s : State) : (raiseError e s).latch = s.latch := rfl
@[simp] theorem raiseError_settleTimer (e : CommandError) (s : State) : (raiseError e s).settleTimer = s.settleTimer := rfl
@[simp] theorem raiseError_trace (e : CommandError) (s : State) : (raiseError e s).trace = s.trace := rfl
@[simp] theorem raiseError_env (e : CommandError) (s : State) : (raiseError e s).env = s.env := rfl
@[simp] theorem raiseError_program (e : CommandError) (s : State) : (raiseError e s).program = s.program := rfl
@[simp] theorem raiseError_reads (e : CommandError) (s : State) : (raiseError e s).reads = s.reads := rfl
@[simp] theorem raiseError_script (e : CommandError) (s : State) : (raiseError e s).script = s.script := rfl
@[simp] theorem raiseError_rule (e : CommandError) (s : State) : (raiseError e s).rule = s.rule := rfl
@[simp] theorem raiseError_draws (e : CommandError) (s : State) : (raiseError e s).draws = s.draws := rfl

/-! ### start -/

@[simp] theorem start_params (op : SeqOp) (l : Latch) (s : State) : (start op l s).params = s.params := rfl
@[simp] theorem start_status (op : SeqOp) (l : Latch) (s : State) : (start op l s).status = statusStart s.status := rfl
@[simp] theorem start_regs (op : SeqOp) (l : Latch) (s : State) : (start op l s).regs = s.regs := rfl
@[simp] theorem start_seq (op : SeqOp) (l : Latch) (s : State) : (start op l s).seq = .run op 0 := rfl
@[simp] theorem start_rbuf (op : SeqOp) (l : Latch) (s : State) : (start op l s).rbuf = .zero := rfl
@[simp] theorem start_rcnt (op : SeqOp) (l : Latch) (s : State) : (start op l s).rcnt = 0 := rfl
@[simp] theorem start_latch (op : SeqOp) (l : Latch) (s : State) : (start op l s).latch = l := rfl
@[simp] theorem start_settleTimer (op : SeqOp) (l : Latch) (s : State) : (start op l s).settleTimer = s.settleTimer := rfl
@[simp] theorem start_trace (op : SeqOp) (l : Latch) (s : State) : (start op l s).trace = s.trace := rfl
@[simp] theorem start_env (op : SeqOp) (l : Latch) (s : State) : (start op l s).env = s.env := rfl
@[simp] theorem start_program (op : SeqOp) (l : Latch) (s : State) : (start op l s).program = s.program := rfl
@[simp] theorem start_reads (op : SeqOp) (l : Latch) (s : State) : (start op l s).reads = s.reads := rfl
@[simp] theorem start_script (op : SeqOp) (l : Latch) (s : State) : (start op l s).script = s.script := rfl
@[simp] theorem start_rule (op : SeqOp) (l : Latch) (s : State) : (start op l s).rule = s.rule := rfl
@[simp] theorem start_draws (op : SeqOp) (l : Latch) (s : State) : (start op l s).draws = s.draws := rfl

/-! ### storeByte -/

@[simp] theorem storeByte_params (b : Byte) (s : State) : (storeByte b s).params = s.params := rfl
@[simp] theorem storeByte_status (b : Byte) (s : State) : (storeByte b s).status = s.status := rfl
@[simp] theorem storeByte_regs (b : Byte) (s : State) : (storeByte b s).regs = s.regs := rfl
@[simp] theorem storeByte_seq (b : Byte) (s : State) : (storeByte b s).seq = s.seq := rfl
@[simp] theorem storeByte_rbuf (b : Byte) (s : State) : (storeByte b s).rbuf = setByte7 s.rbuf s.rcnt b := rfl
@[simp] theorem storeByte_rcnt (b : Byte) (s : State) : (storeByte b s).rcnt = s.rcnt + 1 := rfl
@[simp] theorem storeByte_latch (b : Byte) (s : State) : (storeByte b s).latch = s.latch := rfl
@[simp] theorem storeByte_settleTimer (b : Byte) (s : State) : (storeByte b s).settleTimer = s.settleTimer := rfl
@[simp] theorem storeByte_trace (b : Byte) (s : State) : (storeByte b s).trace = s.trace := rfl
@[simp] theorem storeByte_env (b : Byte) (s : State) : (storeByte b s).env = s.env := rfl
@[simp] theorem storeByte_program (b : Byte) (s : State) : (storeByte b s).program = s.program := rfl
@[simp] theorem storeByte_reads (b : Byte) (s : State) : (storeByte b s).reads = s.reads := rfl
@[simp] theorem storeByte_script (b : Byte) (s : State) : (storeByte b s).script = s.script := rfl
@[simp] theorem storeByte_rule (b : Byte) (s : State) : (storeByte b s).rule = s.rule := rfl
@[simp] theorem storeByte_draws (b : Byte) (s : State) : (storeByte b s).draws = s.draws := rfl

/-! ### busCall -/

@[simp] theorem busCall_params (c : BusCall) (s : State) : (busCall c s).2.params = s.params := rfl
@[simp] theorem busCall_status (c : BusCall) (s : State) : (busCall c s).2.status = s.status := rfl
@[simp] theorem busCall_regs (c : BusCall) (s : State) : (busCall c s).2.regs = s.regs := rfl
@[simp] theorem busCall_seq (c : BusCall) (s : State) : (busCall c s).2.seq = s.seq := rfl
@[simp] theorem busCall_rbuf (c : BusCall) (s : State) : (busCall c s).2.rbuf = s.rbuf := rfl
@[simp] theorem busCall_rcnt (c : BusCall) (s : State) : (busCall c s).2.rcnt = s.rcnt := rfl
@[simp] theorem busCall_latch (c : BusCall) (s : State) : (busCall c s).2.latch = s.latch := rfl
@[simp] theorem busCall_settleTimer (c : BusCall) (s : State) : (busCall c s).2.settleTimer = timerAfter s.draws s.settleTimer c := rfl
@[simp] theorem busCall_trace (c : BusCall) (s : State) : (busCall c s).2.trace = s.trace ++ [(envCall s.draws s.env c).1] := rfl
@[simp] theorem busCall_env (c : BusCall) (s : State) : (busCall c s).2.env = (envCall s.draws s.env c).2 := rfl
@[simp] theorem busCall_program (c : BusCall) (s : State) : (busCall c s).2.program = s.program := rfl
@[simp] theorem busCall_reads (c : BusCall) (s : State) : (busCall c s).2.reads = s.reads := rfl
@[simp] theorem busCall_script (c : BusCall) (s : State) : (busCall c s).2.script = s.script := rfl
@[simp] theorem busCall_rule (c : BusCall) (s : State) : (busCall c s).2.rule = s.rule := rfl
@[simp] theorem busCall_draws (c : BusCall) (s : State) : (busCall c s).2.draws = s.draws + 1 := rfl

/-! ### applyReset -/

@[simp] theorem applyReset_params (s : State) : (applyReset s).params = s.params := rfl
@[simp] theorem applyReset_status (s : State) : (applyReset s).status = .zero := rfl
@[simp] theorem applyReset_regs (s : State) : (applyReset s).regs = .unwritten := rfl
@[simp] theorem applyReset_seq (s : State) : (applyReset s).seq = .idle := rfl
@[simp] theorem applyReset_rbuf (s : State) : (applyReset s).rbuf = .zero := rfl
@[simp] theorem applyReset_rcnt (s : State) : (applyReset s).rcnt = 0 := rfl
@[simp] theorem applyReset_latch (s : State) : (applyReset s).latch = .zero := rfl
@[simp] theorem applyReset_settleTimer (s : State) : (applyReset s).settleTimer = 0 := rfl
@[simp] theorem applyReset_trace (s : State) : (applyReset s).trace = [] := rfl
@[simp] theorem applyReset_env (s : State) : (applyReset s).env = envReset s.draws s.seq s.latch s.env := rfl
@[simp] theorem applyReset_program (s : State) : (applyReset s).program = s.program := rfl
@[simp] theorem applyReset_reads (s : State) : (applyReset s).reads = s.reads := rfl
@[simp] theorem applyReset_script (s : State) : (applyReset s).script = s.script := rfl
@[simp] theorem applyReset_rule (s : State) : (applyReset s).rule = s.rule := rfl
@[simp] theorem applyReset_draws (s : State) : (applyReset s).draws = s.draws + 1 := rfl

/-! ### placeAccess -/

@[simp] theorem placeAccess_params (a : HostAccess) (s : State) : (placeAccess a s).params = s.params := rfl
@[simp] theorem placeAccess_status (a : HostAccess) (s : State) : (placeAccess a s).status = s.status := rfl
@[simp] theorem placeAccess_regs (a : HostAccess) (s : State) : (placeAccess a s).regs = s.regs := rfl
@[simp] theorem placeAccess_seq (a : HostAccess) (s : State) : (placeAccess a s).seq = s.seq := rfl
@[simp] theorem placeAccess_rbuf (a : HostAccess) (s : State) : (placeAccess a s).rbuf = s.rbuf := rfl
@[simp] theorem placeAccess_rcnt (a : HostAccess) (s : State) : (placeAccess a s).rcnt = s.rcnt := rfl
@[simp] theorem placeAccess_latch (a : HostAccess) (s : State) : (placeAccess a s).latch = s.latch := rfl
@[simp] theorem placeAccess_settleTimer (a : HostAccess) (s : State) : (placeAccess a s).settleTimer = s.settleTimer := rfl
@[simp] theorem placeAccess_trace (a : HostAccess) (s : State) : (placeAccess a s).trace = s.trace := rfl
@[simp] theorem placeAccess_env (a : HostAccess) (s : State) : (placeAccess a s).env = s.env := rfl
@[simp] theorem placeAccess_program (a : HostAccess) (s : State) : (placeAccess a s).program = .access a :: s.program := rfl
@[simp] theorem placeAccess_reads (a : HostAccess) (s : State) : (placeAccess a s).reads = s.reads := rfl
@[simp] theorem placeAccess_script (a : HostAccess) (s : State) : (placeAccess a s).script = .host :: s.script := rfl
@[simp] theorem placeAccess_rule (a : HostAccess) (s : State) : (placeAccess a s).rule = s.rule := rfl
@[simp] theorem placeAccess_draws (a : HostAccess) (s : State) : (placeAccess a s).draws = s.draws := rfl

@[simp] theorem busCall_event (c : BusCall) (s : State) : (busCall c s).1 = (envCall s.draws s.env c).1 := rfl

/-! ### The register file -/

@[simp] theorem regGet_regSet_same (f : RegFile) (r : Reg) (v : Byte) : regGet (regSet f r v) r = ⟨v, true⟩ := by
  cases r <;> rfl

theorem regGet_regSet_other (f : RegFile) {r q : Reg} (v : Byte) (h : q ≠ r) :
    regGet (regSet f r v) q = regGet f q := by
  cases r <;> cases q <;> first | rfl | exact absurd rfl h

@[simp] theorem regVal_regSet_same (f : RegFile) (r : Reg) (v : Byte) : regVal (regSet f r v) r = v := by
  simp [regVal]

/-- A completion writes no register outside its list. -/
theorem regGet_regSetAll_other (f : RegFile) (q : Reg) (ws : List (Reg × Byte)) (h : ∀ w ∈ ws, q ≠ w.1) :
    regGet (regSetAll f ws) q = regGet f q := by
  induction ws generalizing f with
  | nil => rfl
  | cons w ws ih =>
    obtain ⟨r, v⟩ := w
    have hr : q ≠ r := h (r, v) (by simp)
    rw [regSetAll, ih _ (fun w hw => h w (by simp [hw])), regGet_regSet_other f v hr]

@[simp] theorem regGet_unwritten (r : Reg) : regGet .unwritten r = .unwritten := by
  cases r <;> rfl

/-- RTCR's completion leaves the seven T registers at the record it writes (R83). -/
@[simp] theorem timeRecord_timeWrites (f : RegFile) (t : Bytes7) : timeRecord (regSetAll f (timeWrites t)) = t := rfl

/-! ### STATUS -/

@[simp] theorem statusAccept_busy (s : Status) : (statusAccept s).busy = s.busy := rfl

theorem statusAccept_of_idle {s : Status} (h : s.busy = false) : statusAccept s = .zero := by
  cases s; simp_all [statusAccept, Status.zero]

theorem statusComplete_zero : statusComplete .zero = doneStatus := rfl

theorem statusStart_zero : statusStart .zero = busyStatus := rfl

theorem statusComplete_busyStatus : statusComplete busyStatus = doneStatus := rfl

theorem statusError_noData_busyStatus : statusError .noData busyStatus = noDataStatus := rfl

theorem statusError_rangeError_zero : statusError .rangeError .zero = rangeErrorStatus := rfl

theorem statusError_illegalCommand_zero : statusError .illegalCommand .zero = illegalStatus := rfl

@[simp] theorem statusError_busy (e : CommandError) (s : Status) : (statusError e s).busy = false := by
  cases e <;> rfl

@[simp] theorem statusError_done (e : CommandError) (s : Status) : (statusError e s).done = true := by
  cases e <;> rfl

@[simp] theorem statusError_errBusy (e : CommandError) (s : Status) : (statusError e s).errBusy = s.errBusy := by
  cases e <;> rfl

end Sys2Proof.Machine
end

