-- ==== Sys2Proof/Laws/Ops.lean ====
section
/-! SUPPORT. For each shared operation, one lemma that says all it can do. -/

namespace Sys2Proof.Machine

/-! ### Acceptance -/

/-- R97: while BUSY the write is dropped. -/
theorem accept_busy {s : State} (f : State → Result) (h : s.status.busy = true) : accept s f = .next (dropWrite s) := by
  simp [accept, h]

/-- R96: otherwise the command runs on a cleared STATUS. -/
theorem accept_idle {s : State} (f : State → Result) (h : s.status.busy = false) :
    accept s f = f { s with status := .zero } := by
  simp [accept, h, statusAccept_of_idle h]

/-! ### What each accepting write answers when no command runs -/

theorem execNop_idle {s : State} (h : s.status.busy = false) :
    execNop s = .next { s with status := doneStatus, seq := .idle } :=
  accept_idle _ h

theorem execEnc_idle {s : State} (h : s.status.busy = false) :
    execEnc s = .next
      (if (regVal s.regs .din).toNat ≤ 99 then
        { s with status := doneStatus, seq := .idle, regs := regSet s.regs .dout (trunc8 (enc (regVal s.regs .din))) }
      else if s.params.checkRange then { s with status := rangeErrorStatus, seq := .idle }
      else { s with status := doneStatus, seq := .idle, regs := regSet s.regs .dout (encOvf s.params (regVal s.regs .din)) }) := by
  rw [execEnc, accept_idle _ h]
  dsimp only
  split
  · rfl
  · split <;> rfl

theorem execDec_idle {s : State} (h : s.status.busy = false) :
    execDec s = .next
      { s with status := doneStatus, seq := .idle, regs := regSet s.regs .dout (dec (regVal s.regs .din)) } :=
  accept_idle _ h

theorem execRtcw_idle {s : State} (h : s.status.busy = false) :
    execRtcw s = .next
      (if s.params.checkRange && !timeInRange (timeRecord s.regs) then { s with status := rangeErrorStatus, seq := .idle }
      else { s with status := busyStatus, seq := .run .rtcw 0, latch := ⟨timeRecord s.regs, 0, 0⟩, rbuf := .zero, rcnt := 0 }) := by
  rw [execRtcw, accept_idle _ h]
  dsimp only
  split <;> rfl

theorem execRtcr_idle {s : State} (h : s.status.busy = false) :
    execRtcr s = .next { s with status := busyStatus, seq := .run .rtcr 0, latch := .zero, rbuf := .zero, rcnt := 0 } :=
  accept_idle _ h

theorem execEew_idle {s : State} (h : s.status.busy = false) :
    execEew s = .next
      (if s.params.checkRange && !eeInRange (eeAddress s.regs) then { s with status := rangeErrorStatus, seq := .idle }
      else { s with
        status := busyStatus
        seq := .run .eew 0
        latch := ⟨.zero, eeAddress s.regs, regVal s.regs .eeData⟩
        rbuf := .zero
        rcnt := 0 }) := by
  rw [execEew, accept_idle _ h]
  dsimp only
  split <;> rfl

theorem execEer_idle {s : State} (h : s.status.busy = false) :
    execEer s = .next
      (if s.params.checkRange && !eeInRange (eeAddress s.regs) then { s with status := rangeErrorStatus, seq := .idle }
      else { s with
        status := busyStatus
        seq := .run .eer 0
        latch := ⟨.zero, eeAddress s.regs, 0⟩
        rbuf := .zero
        rcnt := 0 }) := by
  rw [execEer, accept_idle _ h]
  dsimp only
  split <;> rfl

theorem illegalCommand_idle {s : State} (h : s.status.busy = false) :
    illegalCommand s = .next { s with status := illegalStatus, seq := .idle } :=
  accept_idle _ h

/-- R97, R112: while BUSY every command is dropped. -/
theorem exec_busy (i : Instr) {s : State} (h : s.status.busy = true) : exec i s = .next (dropWrite s) := by
  cases i <;> simp [exec, execNop, execEnc, execDec, execRtcw, execRtcr, execEew, execEer, accept_busy _ h]

/-! ### Sequencing -/

theorem rtcwFrame_eq (p : Params) (t : Bytes7) :
    rtcwFrame p t = [.beginTxn rtcId, .write rtcBase, .write (encByte p t.b0), .write (encByte p t.b1),
      .write (encByte p t.b2), .write (encByte p t.b3), .write (encByte p t.b4), .write (encByte p t.b5),
      .write (encByte p t.b6), .endTxn] := rfl

/-- R99: the calls of each command on success. -/
theorem frame_length (p : Params) (op : SeqOp) (l : Latch) :
    (frame p op l).length = (match op with | .rtcw => 10 | .rtcr => 18 | .eew => 6 | .eer => 7) := by
  cases op <;> rfl

/-- What a step's continuation can do: end with NODATA, complete, or go on to the next call; a byte read is in RBUF. -/
theorem afterCall_cases (op : SeqOp) (k : Nat) (ev : BusEvent) (s : State) :
    (ev = .avail false ∧ afterCall op k ev s = raiseError .noData s) ∨
    (ev ≠ .avail false ∧ ∃ s1, ((∃ b, ev = .rd b ∧ s1 = storeByte b s) ∨ ((∀ b, ev ≠ .rd b) ∧ s1 = s)) ∧
      ((k + 1 = (frame s.params op s.latch).length ∧ afterCall op k ev s = complete (results op s1.rbuf) s1) ∨
       (k + 1 ≠ (frame s.params op s.latch).length ∧ afterCall op k ev s = { s1 with seq := .run op (k + 1) }))) := by
  have adv : ∀ s1 : State, s1.params = s.params → s1.latch = s.latch →
      (k + 1 = (frame s.params op s.latch).length ∧ advance op k s1 = complete (results op s1.rbuf) s1) ∨
      (k + 1 ≠ (frame s.params op s.latch).length ∧ advance op k s1 = { s1 with seq := .run op (k + 1) }) := by
    intro s1 hp hl
    unfold advance
    rw [hp, hl]
    split
    · exact .inl ⟨‹_›, rfl⟩
    · exact .inr ⟨‹_›, rfl⟩
  cases ev with
  | avail r =>
    cases r
    · exact .inl ⟨rfl, rfl⟩
    · exact .inr ⟨by simp, s, .inr ⟨by simp, rfl⟩, adv s rfl rfl⟩
  | rd b => exact .inr ⟨by simp, storeByte b s, .inl ⟨b, rfl, rfl⟩, adv _ rfl rfl⟩
  | beginTxn id => exact .inr ⟨by simp, s, .inr ⟨by simp, rfl⟩, adv s rfl rfl⟩
  | wr b => exact .inr ⟨by simp, s, .inr ⟨by simp, rfl⟩, adv s rfl rfl⟩
  | endTxn => exact .inr ⟨by simp, s, .inr ⟨by simp, rfl⟩, adv s rfl rfl⟩
  | req id n => exact .inr ⟨by simp, s, .inr ⟨by simp, rfl⟩, adv s rfl rfl⟩
  | settle => exact .inr ⟨by simp, s, .inr ⟨by simp, rfl⟩, adv s rfl rfl⟩

@[simp] theorem seqStep_idle {s : State} (h : s.seq = .idle) : seqStep s = .next s := by
  simp [seqStep, h]

/-- R99: while a command runs a step makes call `k` of its frame and goes on from there; past the frame it stops. -/
theorem seqStep_run {s : State} {op : SeqOp} {k : Nat} (h : s.seq = .run op k) :
    seqStep s = match (frame s.params op s.latch)[k]? with
      | none => .fault .badSequencerIndex
      | some c => .next (afterCall op k (busCall c s).1 (busCall c s).2) := by
  unfold seqStep
  exact h ▸ rfl

/-- The inversion of a step that answers: the call made, and the state it leaves. -/
theorem seqStep_next {s t : State} {op : SeqOp} {k : Nat} (h : s.seq = .run op k) (ht : seqStep s = .next t) :
    ∃ c, (frame s.params op s.latch)[k]? = some c ∧ t = afterCall op k (busCall c s).1 (busCall c s).2 := by
  rw [seqStep_run h] at ht
  split at ht
  · cases ht
  · rename_i c hc
    cases ht
    exact ⟨c, hc, rfl⟩

theorem seqSteps_succ (n : Nat) {s t : State} (h : seqStep s = .next t) : seqSteps (n + 1) s = seqSteps n t := by
  simp [seqSteps, h]

/-- `m + n` steps are `m` steps and then `n`. -/
theorem seqSteps_add (m n : Nat) {s t : State} (h : seqSteps m s = .next t) : seqSteps (m + n) s = seqSteps n t := by
  induction m generalizing s with
  | zero =>
    cases h
    simp
  | succ m ih =>
    simp only [seqSteps] at h
    have e : m + 1 + n = m + n + 1 := by omega
    rw [e]
    simp only [seqSteps]
    split at h
    · rename_i s' hs'
      exact ih h
    · cases h
    · cases h

/-! ### The sequencer does not look at the host's pending work -/

theorem advance_program (op : SeqOp) (k : Nat) (p : List HostOp) (s : State) :
    advance op k { s with program := p } = { advance op k s with program := p } := by
  unfold advance
  simp only []
  split <;> rfl

theorem afterCall_program (op : SeqOp) (k : Nat) (ev : BusEvent) (p : List HostOp) (s : State) :
    afterCall op k ev { s with program := p } = { afterCall op k ev s with program := p } := by
  cases ev with
  | avail r =>
    cases r
    · rfl
    · exact advance_program op k p s
  | rd b => exact advance_program op k p (storeByte b s)
  | beginTxn _ | wr _ | endTxn | req _ _ | settle => exact advance_program op k p s

theorem seqStep_program {s t : State} (p : List HostOp) (h : seqStep s = .next t) :
    seqStep { s with program := p } = .next { t with program := p } := by
  obtain hq | ⟨op, k, hq⟩ : s.seq = .idle ∨ ∃ op k, s.seq = .run op k := by
    cases s.seq <;> simp
  · rw [seqStep_idle hq] at h
    cases h
    exact seqStep_idle (s := { s with program := p }) hq
  · obtain ⟨c, hc, rfl⟩ := seqStep_next hq h
    refine (seqStep_run (s := { s with program := p }) hq).trans ?_
    simp only [hc]
    exact congrArg Host.Outcome.next (afterCall_program op k (busCall c s).1 p (busCall c s).2)

/-! ### The EEPROM address -/

/-- R65, R88: the first frame byte of the operand is EEADDR_H. -/
@[simp] theorem addrHi_eeAddress (f : RegFile) : addrHi (eeAddress f) = f.eeAddrH.val := by
  have h : addrHi (eeAddress f) = (f.eeAddrH.val ++ f.eeAddrL.val : BitVec (8 + 8)).extractLsb' 8 8 := rfl
  rw [h]
  exact BitVec.extractLsb'_append_eq_left

/-- R65, R88: the second is EEADDR_L. -/
@[simp] theorem addrLo_eeAddress (f : RegFile) : addrLo (eeAddress f) = f.eeAddrL.val := by
  have h : addrLo (eeAddress f) = (f.eeAddrH.val ++ f.eeAddrL.val : BitVec (8 + 8)).extractLsb' 0 8 := rfl
  rw [h]
  exact BitVec.extractLsb'_append_eq_right

/-! ### Host accesses -/

theorem hostWriteReg_cases (r : Reg) (v : Byte) (s : State) :
    (hostWritable r = true ∧ s.status.busy = true ∧ hostWriteReg r v s = dropWrite s) ∨
    (hostWritable r = true ∧ s.status.busy = false ∧ hostWriteReg r v s = { s with regs := regSet s.regs r v }) ∨
    (hostWritable r = false ∧ hostWriteReg r v s = s) := by
  unfold hostWriteReg
  split
  · split
    · exact .inl ⟨‹_›, ‹_›, rfl⟩
    · rename_i h; exact .inr (.inl ⟨‹_›, by simpa using h, rfl⟩)
  · rename_i h; exact .inr (.inr ⟨by simpa using h, rfl⟩)

/-- R93 to R97: all a host access can do. -/
theorem hostAccess_cases (a : HostAccess) (s : State) :
    (∃ o, a = .read o ∧ hostAccess a s = .next { s with reads := s.reads ++ [⟨o, hostRead s o⟩] }) ∨
    (∃ c i, a = .write 0x0 c ∧ decode c = .ok i ∧ hostAccess a s = exec i s) ∨
    (∃ c, a = .write 0x0 c ∧ decode c = .error (.illegalCommand c) ∧ hostAccess a s = illegalCommand s) ∨
    (∃ r v, a = .write (regOffset r) v ∧ hostAccess a s = .next (hostWriteReg r v s)) ∨
    (∃ o v, a = .write o v ∧ (o = 0x1 ∨ o = 0xE ∨ o = 0xF) ∧ hostAccess a s = .next s) := by
  cases a with
  | read o => exact .inl ⟨o, rfl, rfl⟩
  | write o v =>
    have ho : portOffset (portOf o) = o := by revert o; decide
    simp only [hostAccess, hostWrite]
    cases hp : portOf o with
    | cmd =>
      obtain rfl : o = 0x0 := (portOf_eq_cmd o).1 hp
      simp only [hostWriteCmd]
      cases hd : decode v with
      | ok i => exact .inr (.inl ⟨v, i, rfl, hd, rfl⟩)
      | error e =>
        have he : e = .illegalCommand v := by
          have := decode_spec v
          rw [hd] at this
          repeat' split at this
          all_goals first | exact Except.error.inj this | cases this
        subst he
        exact .inr (.inr (.inl ⟨v, rfl, hd, rfl⟩))
    | status => exact .inr (.inr (.inr (.inr ⟨o, v, rfl, .inl (by rw [← ho, hp]; rfl), rfl⟩)))
    | data r => exact .inr (.inr (.inr (.inl ⟨r, v, by rw [← ho, hp]; rfl, rfl⟩)))
    | reservedE => exact .inr (.inr (.inr (.inr ⟨o, v, rfl, .inr (.inl (by rw [← ho, hp]; rfl)), rfl⟩)))
    | reservedF => exact .inr (.inr (.inr (.inr ⟨o, v, rfl, .inr (.inr (by rw [← ho, hp]; rfl)), rfl⟩)))

/-- R97: while BUSY, an access adds to the host's record, is ignored, or is dropped. -/
theorem hostAccess_busy (a : HostAccess) {s : State} (h : s.status.busy = true) :
    (∃ o, hostAccess a s = .next { s with reads := s.reads ++ [⟨o, hostRead s o⟩] }) ∨ hostAccess a s = .next s ∨
      hostAccess a s = .next (dropWrite s) := by
  obtain ⟨o, -, e⟩ | ⟨c, i, -, -, e⟩ | ⟨c, -, -, e⟩ | ⟨r, v, -, e⟩ | ⟨o, v, -, -, e⟩ := hostAccess_cases a s
  · exact .inl ⟨o, e⟩
  · exact .inr (.inr (e.trans (exec_busy i h)))
  · exact .inr (.inr (e.trans (accept_busy _ h)))
  · obtain ⟨-, -, w⟩ | ⟨-, hb, -⟩ | ⟨-, w⟩ := hostWriteReg_cases r v s
    · exact .inr (.inr (by rw [e, w]))
    · simp [hb] at h
    · exact .inr (.inl (by rw [e, w]))
  · exact .inr (.inl e)

/-! ### Turns -/

/-- The choice of the turn uses up the script or a free value, and changes nothing else. -/
theorem nextTurn_state (s : State) : ∃ sc d, (nextTurn s).2 = { s with script := sc, draws := d } := by
  unfold nextTurn
  split
  · exact ⟨_, s.draws, rfl⟩
  · split
    · exact ⟨s.script, s.draws, rfl⟩
    · split
      · exact ⟨s.script, s.draws, rfl⟩
      · exact ⟨s.script, _, rfl⟩

/-- R40, R60: all a host turn can do: nothing, the next access, or one read of a `wait`, which is over when BUSY = 0. -/
theorem hostStep_cases (s : State) :
    (s.program = [] ∧ hostStep s = .next s) ∨
    (∃ a rest, s.program = .access a :: rest ∧ hostStep s = hostAccess a { s with program := rest }) ∨
    (∃ rest, s.program = .wait :: rest ∧ hostStep s = .next { s with
      reads := s.reads ++ [⟨0x1, statusByte s.status⟩]
      program := if s.status.busy then .wait :: rest else rest }) := by
  have hb : (statusByte s.status).getLsbD 0 = s.status.busy := by
    generalize s.status = st
    obtain ⟨a, b, c, d, e, f⟩ := st
    revert a b c d e f
    decide
  cases hp : s.program with
  | nil => exact .inl ⟨rfl, by simp [hostStep, hp]⟩
  | cons o rest =>
    cases o with
    | access a => exact .inr (.inl ⟨a, rest, rfl, by simp [hostStep, hp]⟩)
    | wait =>
      refine .inr (.inr ⟨rest, rfl, ?_⟩)
      rw [← hb]
      simp [hostStep, hp, hostAccess, hostRead, portOffset, portOf]

/-- Turns one after another: the first ones, then the others. -/
theorem takeTurns_append (ts us : List Turn) {s t : State} (h : takeTurns ts s = .next t) :
    takeTurns (ts ++ us) s = takeTurns us t := by
  induction ts generalizing s with
  | nil =>
    cases h
    rfl
  | cons r rs ih =>
    simp only [List.cons_append, takeTurns] at h ⊢
    split at h
    · exact ih h
    · cases h
    · cases h

/-- A command written where the next access is taken is what the next step runs. -/
theorem step_placeAccess (a : HostAccess) (s : State) : step (placeAccess a s) = hostAccess a s := rfl

end Sys2Proof.Machine
end

