-- ==== Sys2Proof/Laws/PerInstr.lean ====
section
/-! SUPPORT. Statements made of every command as syntax, one lemma per constructor. -/

namespace Sys2Proof.Laws.TableWord

/-- The command is well-formed, its byte is one R56 lists, and the table decoder reads it back. -/
def Statement (i : Instr) : Prop :=
  i.wellFormed = true ∧ commandByteWellFormed (encode i) = true ∧ decodeTableWord 8 (encode i).toNat = some i

theorem nop : Statement .nop := by unfold Statement; decide
theorem enc : Statement .enc := by unfold Statement; decide
theorem dec : Statement .dec := by unfold Statement; decide
theorem rtcw : Statement .rtcw := by unfold Statement; decide
theorem rtcr : Statement .rtcr := by unfold Statement; decide
theorem eew : Statement .eew := by unfold Statement; decide
theorem eer : Statement .eer := by unfold Statement; decide

end Sys2Proof.Laws.TableWord
end

