-- ==== Sys2Proof/Tests/Slice0.lean ====
section
/-! SUPPORT. Tests against the vectors of 95_test_vectors.md and the examples of the rules, and a witness for the hypotheses
of each statement. Each expected value is copied from the spec; its id stands in the comment. -/

namespace Sys2Proof.Tests

open Sys2Proof.Machine

/-! ## Helpers -/

/-- A field of the state a step answers. -/
def after {α : Type} (o : Result) (f : State → α) : Option α :=
  match o with
  | .next s => some (f s)
  | .fault _ => none
  | .refused _ => none

/-- After reset, with registers written by the host. -/
def withRegs (ws : List (Reg × Byte)) : State := { State.reset with regs := regSetAll .unwritten ws }

/-- The same with CHECK_RANGE = 0 and the default ENC_OVF. -/
def uncheckedRegs (ws : List (Reg × Byte)) : State := { withRegs ws with params := ⟨false, .truncated⟩ }

/-- The record of NWT §8 item 3. -/
def record : Bytes7 := ⟨45, 30, 13, 3, 15, 6, 24⟩

/-- After reset, with that record in the T registers. -/
def withRecord : State := withRegs (timeWrites record)

/-- After reset, with EEADDR = 0x1234 and EEDATA = 0x5A. -/
def withAddress : State := withRegs [(.eeAddrH, 0x12), (.eeAddrL, 0x34), (.eeData, 0x5A)]

/-- A command running, BUSY set, with coming answers of the environment. -/
def runningAt (op : SeqOp) (k : Nat) (l : Latch) (avails : List Bool) (bytes : List Byte) : State :=
  { State.reset with status := busyStatus, seq := .run op k, latch := l, env := ⟨.free, avails, bytes, .cold⟩ }

/-! ## Well-formedness: what each check refuses -/

theorem test_wf_command_byte_refuses : commandByteWellFormed 0x12 = false := by decide
theorem test_wf_access_word_refuses_reserved_bits : accessWordWellFormed 0x1100 = false := by decide
theorem test_wf_access_word_refuses_read_with_data : accessWordWellFormed 0x01FF = false := by decide
theorem test_wf_access_word_accepts : accessWordWellFormed 0x8C64 = true := by decide
theorem test_wf_statement_refuses_unnamed_register : (Stmt.wr .reservedE 0x55).wellFormed = false := by decide
theorem test_wf_statement_refuses_unnamed_read : (Stmt.rd .reservedF).wellFormed = false := by decide
theorem test_wf_statement_accepts : (Stmt.op .rtcw).wellFormed = true := by decide
theorem test_wf_wait_refuses_no_read : waitReadsWellFormed [] = false := by decide
theorem test_wf_wait_refuses_ending_while_busy : waitReadsWellFormed [0x01] = false := by decide
theorem test_wf_wait_refuses_reads_past_the_end : waitReadsWellFormed [0x02, 0x02] = false := by decide
theorem test_wf_wait_accepts : waitReadsWellFormed [0x01, 0x21, 0x22] = true := by decide

/-! ## Decoding: words written out from R55, R56 (group, function) and R59 -/

theorem test_decode_nop : decode 0b0000_0000#8 = .ok .nop := by decide
theorem test_decode_enc : decode 0b0001_0000#8 = .ok .enc := by decide
theorem test_decode_dec : decode 0b0001_0001#8 = .ok .dec := by decide
theorem test_decode_rtcw : decode 0b0010_0000#8 = .ok .rtcw := by decide
theorem test_decode_rtcr : decode 0b0010_0001#8 = .ok .rtcr := by decide
theorem test_decode_eew : decode 0b0011_0000#8 = .ok .eew := by decide
theorem test_decode_eer : decode 0b0011_0001#8 = .ok .eer := by decide
theorem test_decode_illegal : decode 0x32 = .error (.illegalCommand 0x32) := by decide
theorem test_table_word : decodeTableWord 8 0x21 = some .rtcr ∧ decodeTableWord 8 0x22 = none := by decide

/-- `wr CMD, 0x10` is 0x8010 (R59): 1 000 0000 00010000. -/
theorem test_access_word_write : decodeAccess 0b1_000_0000_00010000#16 = .ok (.write 0x0 0x10) := by decide
/-- `rd STATUS` is 0x0100 (R59): 0 000 0001 00000000. -/
theorem test_access_word_read : decodeAccess 0b0_000_0001_00000000#16 = .ok (.read 0x1) := by decide
/-- P3 statements 5 to 7: 0x8C64, 0x8D5A, then `op EEW` as 0x8030 and 0x0100. -/
theorem test_assemble_program : assemble 1 (.wr (.data .eeAddrL) 0x64) ++ assemble 1 (.wr (.data .eeData) 0x5A) ++
    assemble 1 (.op .eew) = [0x8C64, 0x8D5A, 0x8030, 0x0100] := by decide

/-! ## NOP, the codec and illegal bytes -/

/-- R101: from STATUS = 0x2A, NOP leaves 0x02. -/
theorem test_nop_clears_errors :
    after (exec .nop { State.reset with status := ⟨false, true, false, true, false, true⟩ }) (fun s => statusByte s.status) =
      some 0x02 := by decide
/-- EN-4: DIN = 45 gives DOUT = 0x45. -/
theorem test_enc_45 : after (exec .enc (withRegs [(.din, 45)])) (fun s => (regVal s.regs .dout, statusByte s.status)) =
    some (0x45, 0x02) := by decide
/-- EN-6: DIN = 100 with CHECK_RANGE = 1: DOUT unchanged, STATUS = 0x06. -/
theorem test_enc_100 : after (exec .enc (withRegs [(.din, 100), (.dout, 0x77)]))
    (fun s => (regVal s.regs .dout, statusByte s.status)) = some (0x77, 0x06) := by decide
/-- EN-9, EN-10: the 8-bit cut of the default ENC_OVF. -/
theorem test_encOvf_default : encOvf ⟨false, .truncated⟩ 159 = 0xF9 ∧ encOvf ⟨false, .truncated⟩ 160 = 0x00 := by decide
/-- DE-6: DIN = 0x2A gives 30 (90_conflicts.md C1). -/
theorem test_dec_2A : after (exec .dec (withRegs [(.din, 0x2A)])) (fun s => regVal s.regs .dout) = some 30 := by decide
/-- DE-11: DIN = 0xFF gives 165. -/
theorem test_dec_FF : after (exec .dec (withRegs [(.din, 0xFF)])) (fun s => regVal s.regs .dout) = some 165 := by decide
/-- CS-3: an illegal byte gives STATUS = 0x12. -/
theorem test_illegal_byte : after (hostAccess (.write 0x0 0x12) State.reset) (fun s => statusByte s.status) = some 0x12 := by decide

/-! ## The RTC multiplexer -/

/-- RR-1, CS-8: an in-range record is accepted: STATUS = 0x01. -/
theorem test_rtcw_accepts : after (exec .rtcw withRecord) (fun s => (statusByte s.status, s.seq, s.trace)) =
    some (0x01, .run .rtcw 0, []) := by decide
/-- RR-9: hour 24 is out of range: STATUS = 0x06. -/
theorem test_rtcw_range_error : after (exec .rtcw (withRegs (timeWrites ⟨0, 0, 24, 0, 1, 1, 0⟩)))
    (fun s => (statusByte s.status, s.seq)) = some (0x06, .idle) := by decide
/-- RR-1: the frame bytes. -/
theorem test_pack_record : pack ⟨true, .truncated⟩ record = ⟨0x45, 0x30, 0x13, 0x03, 0x15, 0x06, 0x24⟩ := by decide
/-- RR-18: out-of-range fields sent as encoded. -/
theorem test_pack_out_of_range : pack ⟨false, .truncated⟩ ⟨85, 59, 45, 8, 0, 13, 100⟩ =
    ⟨0x85, 0x59, 0x45, 0x08, 0x00, 0x13, 0xA0⟩ := by decide
/-- RR-3, RR-4, RR-5: the masks of second and hour, and none on the minute. -/
theorem test_unpack_masks : unpack ⟨0xAA, 0x80, 0xD3, 0x00, 0x01, 0x01, 0x00⟩ = ⟨30, 80, 13, 0, 1, 1, 0⟩ := by decide
/-- RR-17: 31 February passes. -/
theorem test_no_calendar_check : timeInRange ⟨0, 0, 0, 0, 31, 2, 23⟩ = true := by decide
/-- RTCR is accepted without operands (CS-19). -/
theorem test_rtcr_accepts : after (exec .rtcr State.reset) (fun s => (statusByte s.status, s.seq)) =
    some (0x01, .run .rtcr 0) := by decide
/-- RN-3: the seventh byte missing (step 17): STATUS = 0x0A and no T register written. -/
theorem test_rtcr_no_data : after (seqStep (runningAt .rtcr 16 .zero [false] []))
    (fun s => (statusByte s.status, s.seq, (regGet s.regs .tSec).written, s.trace)) =
      some (0x0A, .idle, false, [.avail false]) := by decide

/-! ## The EEPROM framer -/

/-- EF-5: address 0x1234 is framed 0x12, 0x34 (R88). -/
theorem test_eew_frame : eewFrame 0x1234 0x5A =
    [.beginTxn 0x50, .write 0x12, .write 0x34, .write 0x5A, .endTxn, .settle] := by decide
/-- EF-7: address 0x8000 with CHECK_RANGE = 1: STATUS = 0x06 (CS-16). -/
theorem test_eew_range_error : after (exec .eew (withRegs [(.eeAddrH, 0x80), (.eeAddrL, 0x00), (.eeData, 0)]))
    (fun s => (statusByte s.status, s.trace)) = some (0x06, []) := by decide
/-- EF-7: the same address with CHECK_RANGE = 0 is framed as it is. -/
theorem test_eew_unchecked : after (exec .eew (uncheckedRegs [(.eeAddrH, 0x80), (.eeAddrL, 0x00), (.eeData, 0)]))
    (fun s => (frame s.params .eew s.latch)[1]?) = some (some (.write 0x80)) := by decide
/-- R92: the last step of EER commits the byte read. -/
theorem test_eer_commits : after (seqStep (runningAt .eer 6 .zero [] [0x5A]))
    (fun s => (regVal s.regs .eeData, statusByte s.status, s.trace)) = some (0x5A, 0x02, [.rd 0x5A]) := by decide
/-- EE-5: no byte available: STATUS = 0x0A. -/
theorem test_eer_no_data : after (seqStep (runningAt .eer 5 .zero [false] [])) (fun s => (statusByte s.status, s.seq)) =
    some (0x0A, .idle) := by decide
/-- R51: a write is committed by SETTLE, and then read back. -/
theorem test_reference_eeprom : eeRequest 0 (eeSettle (eeTransaction 0 RefBus.cold.ee [0x00, 0x64, 0x5A])) 1 =
    ([0x5A], ⟨[(100, 0x5A)], 100, .normal, none⟩) := by decide
/-- R50: the RTC stores with auto-increment, and its pointer moves past what it queues. -/
theorem test_reference_rtc : rtcRequest (rtcTransaction RefBus.cold.rtc [0x00, 0x45, 0x30]) 1 =
    ([0x00], ⟨[(0, 0x45), (1, 0x30)], 3, .normal⟩) := by decide

/-! ## Host accesses, turns and reset -/

/-- CS-1: STATUS, CMD and the reserved offsets after reset. -/
theorem test_reads_after_reset : (hostRead State.reset 0x1, hostRead State.reset 0x0, hostRead State.reset 0xE,
    hostRead State.reset 0xF) = (0x00, 0x00, 0x00, 0x00) := by decide
/-- CS-11, CS-12: a write while BUSY is dropped: STATUS = 0x21. -/
theorem test_dropped_write : after (hostAccess (.write 0x4 0) (runningAt .rtcw 3 .zero [] [])) (fun s => statusByte s.status) =
    some 0x21 := by decide
/-- CS-14: a write to STATUS while BUSY sets nothing. -/
theorem test_ignored_write : after (hostAccess (.write 0x1 0) (runningAt .rtcw 3 .zero [] [])) (fun s => statusByte s.status) =
    some 0x01 := by decide
/-- A command placed for the host is what the first step after reset runs (R96). -/
theorem test_first_step : after (step (State.reset.withFetchWord 8 0x11)) (fun s => statusByte s.status) = some 0x02 := by decide
/-- RS-6: reset in the middle of RTCW. -/
theorem test_reset_mid_command : (applyReset (runningAt .rtcw 5 .zero [] [])).seq = .idle ∧
    statusByte (applyReset (runningAt .rtcw 5 .zero [] [])).status = 0x00 := by decide

/-! ## Witnesses: states and operands that meet the hypotheses of each statement -/

theorem witness_ready : Ready withRecord := ⟨rfl, rfl⟩

theorem withRecord_inv : Inv withRecord :=
  ⟨by decide, by decide, by decide, (fun _ _ h => by cases h), ⟨rfl, rfl, rfl, rfl⟩, (fun _ h => by cases h)⟩

/-- RTCR after its fourth call, the sequencer's turn, in a state that meets the invariant, with the environment about to answer false. -/
def midRtcr : State :=
  { runningAt .rtcr 4 .zero [false] [] with
    script := [.sequencer]
    trace := [.beginTxn rtcId, .wr rtcBase, .endTxn, .req rtcId rtcNreg] }

theorem midRtcr_inv : Inv midRtcr := by
  refine ⟨by decide, by decide, by decide, ?_, ⟨rfl, rfl, rfl, rfl⟩, ?_⟩
  · intro op k h
    cases h
    exact ⟨by decide, rfl, trivial, fun _ => rfl, [], rfl⟩
  · intro ev h
    simp only [midRtcr, List.mem_cons, List.not_mem_nil, or_false] at h
    rcases h with rfl | rfl | rfl | rfl
    · exact .inl rfl
    · trivial
    · trivial
    · exact .inl rfl

/-- RTCR before its last read, all seven bytes available. -/
def lastRtcr : State :=
  { runningAt .rtcr 17 .zero [] [0x24] with
    rbuf := ⟨0x45, 0x30, 0x13, 0x03, 0x15, 0x06, 0x00⟩
    rcnt := 6
    trace := (callEvents rtcrFrame [0x45, 0x30, 0x13, 0x03, 0x15, 0x06, 0x00]).take 17 }

theorem lastRtcr_inv : Inv lastRtcr := by
  refine ⟨by decide, by decide, by decide, ?_, ⟨rfl, rfl, rfl, rfl⟩, ?_⟩
  · intro op k h
    cases h
    exact ⟨by decide, rfl, trivial, fun _ => rfl, [], rfl⟩
  · intro ev h
    simp only [lastRtcr, rtcrFrame, callEvents, List.cons_append, List.nil_append, List.take_succ_cons, List.take_zero,
      List.mem_cons, List.not_mem_nil, or_false] at h
    rcases h with rfl | rfl | rfl | rfl | h
    · exact .inl rfl
    · trivial
    · trivial
    · exact .inl rfl
    · repeat (rcases h with rfl | h; · trivial)

theorem witness_CommandEncodingIsOneToOne : decode 0x10 = .ok .enc ∧ (0x10 : Byte) = encode .enc := by decide

theorem witness_OtherBytesAreIllegalCommands_first : commandByteWellFormed 0x00 = true := by decide
theorem witness_OtherBytesAreIllegalCommands_low : commandByteWellFormed 0x01 = false ∧ commandByteWellFormed 0x0F = false := by decide
theorem witness_OtherBytesAreIllegalCommands_high : commandByteWellFormed 0x32 = false ∧ commandByteWellFormed 0xFF = false := by decide
theorem witness_OtherBytesAreIllegalCommands_edges : commandByteWellFormed 0x12 = false ∧ commandByteWellFormed 0x1F = false ∧
    commandByteWellFormed 0x22 = false ∧ commandByteWellFormed 0x2F = false := by decide

theorem witness_AccessWordFormat : decodeAccess 0x0100 = .ok (.read 0x1) ∧ decodeAccess 0xFF00 ≠ .ok (.read 0xF) ∧
    decodeAccess 0x8FFF = .ok (.write 0xF 0xFF) := by decide

theorem witness_StepRunsTheDecodedCommand : ∃ s : State, decode 0x00 = .ok .nop ∧ s.program = [.access (.write 0x0 0x00)] ∧ s.script = [.host] :=
  ⟨{ State.reset with program := [.access (.write 0x0 0x00)], script := [.host] }, rfl, rfl, rfl⟩

theorem witness_StepIsTheTurnOfOneAgent_script :
    (∃ s : State, s.script = [.sequencer]) ∧ (∃ s : State, s.script = [.reset]) ∧
      ∃ s : State, s.script = [.host] ∧ s.program = [.access (.read 0x1)] :=
  ⟨⟨{ State.reset with script := [.sequencer] }, rfl⟩, ⟨{ State.reset with script := [.reset] }, rfl⟩,
    ⟨{ State.reset with script := [.host], program := [.access (.read 0x1)] }, rfl, rfl⟩⟩

theorem witness_StepIsTheTurnOfOneAgent_rule :
    (∃ s : State, s.script = [] ∧ s.seq = .idle ∧ s.program = [.access (.read 0x1)]) ∧
      ∃ s : State, s.script = [] ∧ s.rule = .eager ∧ s.seq ≠ .idle :=
  ⟨⟨{ State.reset with program := [.access (.read 0x1)] }, rfl, rfl, rfl⟩,
    ⟨{ midRtcr with script := [], rule := .eager }, rfl, rfl, by decide⟩⟩

theorem witness_HostWriteStoresAnyByte : Reg.din ≠ .dout ∧ Reg.eeData ≠ .dout ∧ State.reset.status.busy = false := by decide

theorem witness_WritesWhileBusyAreDropped : midRtcr.status.busy = true ∧ (0x0 : Offset) ≠ 0x1 ∧ (0x0 : Offset) ≠ 0x3 ∧
    (0xD : Offset) ≠ 0xE ∧ (0xD : Offset) ≠ 0xF := by decide

theorem witness_SafeAccessIsNeverDropped :
    ∃ t, safeAccess (.write 0x0 0x20) withRecord = true ∧ hostAccess (.write 0x0 0x20) withRecord = .next t :=
  ⟨_, by decide, rfl⟩

/-- A busy state in which ERR_BUSY is already set, and a safe read of STATUS. -/
theorem witness_SafeAccessIsNeverDropped_errBusy :
    ∃ s t, safeAccess (.read 0x1) s = true ∧ hostAccess (.read 0x1) s = .next t ∧ t.status.errBusy = true :=
  ⟨dropWrite midRtcr, _, by decide, rfl, rfl⟩

theorem witness_WritesToReadOnlyOffsetsAreIgnored : ((0xF : Offset) = 0x1 ∨ (0xF : Offset) = 0x3 ∨ (0xF : Offset) = 0xE ∨
    (0xF : Offset) = 0xF) ∧ ((0x1 : Offset) = 0x1 ∨ (0x1 : Offset) = 0x3 ∨ (0x1 : Offset) = 0xE ∨ (0x1 : Offset) = 0xF) := by decide

/-- A wait that reads STATUS twice: while RTCR runs, and after the sequencer's step has ended it. -/
def waiting : State := { midRtcr with program := [.wait, .access (.read 0x2)] }

theorem witness_WaitReadsStatusUntilBusyIsClear :
    ∃ u t, waiting.program = .wait :: [.access (.read 0x2)] ∧ takeTurns [.host, .sequencer] waiting = .next u ∧
      u.program = .wait :: [.access (.read 0x2)] ∧ hostStep u = .next t ∧ t.program = [.access (.read 0x2)] ∧
      t.reads = [⟨0x1, 0x01⟩, ⟨0x1, 0x0A⟩] :=
  ⟨_, _, rfl, rfl, rfl, rfl, rfl, by decide⟩

theorem witness_NopLeavesOnlyDone : Ready State.reset := ⟨rfl, rfl⟩

theorem witness_EncWritesDoutOrRaisesRangeError_inRange :
    Ready (withRegs [(.din, 99)]) ∧ (regVal (withRegs [(.din, 99)]).regs .din).toNat ≤ 99 := ⟨⟨rfl, rfl⟩, by decide⟩

theorem witness_EncWritesDoutOrRaisesRangeError_checked :
    Ready (withRegs [(.din, 100)]) ∧ 100 ≤ (regVal (withRegs [(.din, 100)]).regs .din).toNat ∧
      (withRegs [(.din, 100)]).params.checkRange = true := ⟨⟨rfl, rfl⟩, by decide, rfl⟩

theorem witness_EncWritesDoutOrRaisesRangeError_unchecked :
    Ready (uncheckedRegs [(.din, 100)]) ∧ 100 ≤ (regVal (uncheckedRegs [(.din, 100)]).regs .din).toNat ∧
      (uncheckedRegs [(.din, 100)]).params.checkRange = false ∧
      (uncheckedRegs [(.din, 100)]).params.encOvf = .truncated := ⟨⟨rfl, rfl⟩, by decide, rfl, rfl⟩

theorem witness_DecWritesDout : Ready (withRegs [(.din, 0xFF)]) := ⟨rfl, rfl⟩

theorem witness_EncNibblesAreTensAndUnits : (99 : Byte).toNat ≤ 99 := by decide

theorem witness_CodecRoundTrip : (99 : Byte).toNat ≤ 99 ∧ validBcd 0x99 = true := by decide

theorem witness_CodecImageAndAliases : validBcd 0x99 = true ∧ dec 0x99 = dec 0x99 ∧ (165 : Nat) ≤ 165 := by decide

theorem witness_RtcwSendsTheEncodedRecord_rangeError :
    ∃ s : State, Ready s ∧ s.params.checkRange = true ∧ timeInRange (timeRecord s.regs) = false :=
  ⟨withRegs (timeWrites ⟨60, 0, 0, 0, 1, 1, 0⟩), ⟨rfl, rfl⟩, rfl, by decide⟩

theorem witness_RtcwSendsTheEncodedRecord_sent :
    Ready withRecord ∧ (withRecord.params.checkRange = true → timeInRange (timeRecord withRecord.regs) = true) :=
  ⟨⟨rfl, rfl⟩, by decide⟩

theorem witness_RtcwSendsTheEncodedRecord_unchecked :
    ∃ s : State, Ready s ∧ timeInRange (timeRecord s.regs) = false ∧
      (s.params.checkRange = true → timeInRange (timeRecord s.regs) = true) :=
  ⟨uncheckedRegs (timeWrites ⟨160, 0, 64, 0, 1, 1, 0⟩), ⟨rfl, rfl⟩, by decide, by decide⟩

theorem witness_FieldRanges : timeInRange ⟨59, 59, 23, 7, 31, 12, 99⟩ = true ∧ timeInRange ⟨0, 0, 0, 0, 1, 1, 0⟩ = true := by decide

theorem witness_RtcrEndsInOneOfTwoWays : Ready State.reset := ⟨rfl, rfl⟩

/-- Seven answers true and the bytes of RR-1r. -/
def answering : State :=
  { State.reset with env := ⟨.free, List.replicate 7 true, [0x45, 0x30, 0x13, 0x03, 0x15, 0x06, 0x24], .cold⟩ }

theorem witness_RtcrFillsTheRecordOrReportsNoData_all : Ready answering ∧ answering.env.kind = .free ∧
    answering.env.avails = List.replicate 7 true ++ [] ∧
    answering.env.bytes = listOfBytes7 ⟨0x45, 0x30, 0x13, 0x03, 0x15, 0x06, 0x24⟩ ++ [] := ⟨⟨rfl, rfl⟩, rfl, rfl, rfl⟩

theorem witness_RtcrFillsTheRecordOrReportsNoData_first :
    ∃ s : State, Ready s ∧ s.env.kind = .free ∧ s.env.avails = List.replicate 0 true ++ false :: [] ∧ s.env.bytes = [] ++ [] :=
  ⟨{ State.reset with env := ⟨.free, [false], [], .cold⟩ }, ⟨rfl, rfl⟩, rfl, rfl, rfl⟩

theorem witness_RtcrFillsTheRecordOrReportsNoData_last :
    ∃ s : State, Ready s ∧ s.env.kind = .free ∧ s.env.avails = List.replicate 6 true ++ false :: [] ∧
      s.env.bytes = [1, 2, 3, 4, 5, 6] ++ [] ∧ [1, 2, 3, 4, 5, 6].length = 6 :=
  ⟨{ State.reset with env := ⟨.free, List.replicate 6 true ++ [false], [1, 2, 3, 4, 5, 6], .cold⟩ }, ⟨rfl, rfl⟩, rfl, rfl, rfl, rfl⟩

theorem witness_RtcrCommitsAllFieldsOrNone_none :
    ∃ t, Inv midRtcr ∧ midRtcr.seq = .run .rtcr 4 ∧ seqStep midRtcr = .next t ∧ t.seq = .idle ∧ t.status.noData = true :=
  ⟨_, midRtcr_inv, rfl, rfl, rfl, rfl⟩

theorem witness_RtcrCommitsAllFieldsOrNone_all :
    ∃ t, Inv lastRtcr ∧ lastRtcr.seq = .run .rtcr 17 ∧ seqStep lastRtcr = .next t ∧ t.seq = .idle ∧ t.status.noData = false :=
  ⟨_, lastRtcr_inv, rfl, rfl, rfl, rfl⟩

theorem witness_PackUnpackRoundTrip : timeInRange record = true := by decide

theorem witness_PackUnpackRoundTrip_outside :
    ∃ t : Bytes7, t.b0 = 85 ∧ t.b2 = 45 := ⟨⟨85, 0, 45, 0, 1, 1, 0⟩, rfl, rfl⟩

theorem witness_InRangeRecordsSendZeroControlBits : timeInRange ⟨59, 59, 23, 7, 31, 12, 99⟩ = true := by decide

/-- R82: writes to the T registers of a running RTCW. -/
theorem witness_RtcwSendsTheEncodedRecord_dropped : Reg.tSec ∈ operandRegs .rtcw ∧ Reg.tYear ∈ operandRegs .rtcw ∧
    midRtcr.status.busy = true := by decide

/-- The record in the T registers, and the reference bus. -/
def onReferenceBus : State := { withRecord with env := ⟨.reference, [], [], .cold⟩ }

theorem witness_RtcWriteThenReadReturnsTheRecord : Ready onReferenceBus ∧ onReferenceBus.env.kind = .reference ∧
    onReferenceBus.env.ref.openTxn = none ∧ onReferenceBus.env.ref.rtc.variant = .normal ∧ onReferenceBus.env.ref.rtc.mem.wf = true ∧
    timeInRange (timeRecord onReferenceBus.regs) = true := ⟨⟨rfl, rfl⟩, rfl, rfl, rfl, rfl, by decide⟩

theorem witness_EepromAddressFrame : eeInRange 0x7FFF = true ∧ eeInRange 0x8000 = false := by decide

theorem witness_EewSendsAddressAndByteAndSettles_rangeError :
    ∃ s : State, Ready s ∧ s.params.checkRange = true ∧ eeInRange (eeAddress s.regs) = false :=
  ⟨withRegs [(.eeAddrH, 0x80), (.eeAddrL, 0x00)], ⟨rfl, rfl⟩, rfl, by decide⟩

theorem witness_EewSendsAddressAndByteAndSettles_sent :
    Ready withAddress ∧ (withAddress.params.checkRange = true → eeInRange (eeAddress withAddress.regs) = true) :=
  ⟨⟨rfl, rfl⟩, by decide⟩

theorem witness_EewSendsAddressAndByteAndSettles_unchecked :
    ∃ s : State, Ready s ∧ eeInRange (eeAddress s.regs) = false ∧
      (s.params.checkRange = true → eeInRange (eeAddress s.regs) = true) :=
  ⟨uncheckedRegs [(.eeAddrH, 0xFF), (.eeAddrL, 0xFF)], ⟨rfl, rfl⟩, by decide, by decide⟩

theorem witness_EerReadsOneByteOrReportsNoData_byte :
    ∃ s : State, Ready s ∧ (s.params.checkRange = true → eeInRange (eeAddress s.regs) = true) ∧ s.env.kind = .free ∧
      s.env.avails = [true] ∧ s.env.bytes = [0x5A] :=
  ⟨{ withAddress with env := ⟨.free, [true], [0x5A], .cold⟩ }, ⟨rfl, rfl⟩, by decide, rfl, rfl, rfl⟩

theorem witness_EerReadsOneByteOrReportsNoData_noData :
    ∃ s : State, Ready s ∧ (s.params.checkRange = true → eeInRange (eeAddress s.regs) = true) ∧ s.env.kind = .free ∧
      s.env.avails = [false] :=
  ⟨{ withAddress with env := ⟨.free, [false], [], .cold⟩ }, ⟨rfl, rfl⟩, by decide, rfl, rfl⟩

theorem witness_EepromWriteThenReadReturnsTheByte :
    ∃ s : State, Ready s ∧ s.env.kind = .reference ∧ s.env.ref.openTxn = none ∧ s.env.ref.ee.variant = .normal ∧
      s.env.ref.ee.writeCycle = none ∧ eeInRange (eeAddress s.regs) = true ∧ s.env.ref.ee.mem.wf = true :=
  ⟨{ withAddress with env := ⟨.reference, [], [], .cold⟩ }, ⟨rfl, rfl⟩, rfl, rfl, rfl, rfl, by decide, rfl⟩

/-- The reference bus with an RTC and an EEPROM of one variant. -/
def variantBus (v : Variant) : State :=
  { withAddress with env := ⟨.reference, [], [], { RefBus.cold with rtc := ⟨[], 0, v⟩, ee := ⟨[], 0, v, none⟩ }⟩ }

theorem witness_ReadCommandsLeaveEveryDeviceByte (v : Variant) : Ready (variantBus v) ∧ (variantBus v).env.kind = .reference ∧
    (variantBus v).env.ref.openTxn = none ∧ (variantBus v).env.ref.ee.writeCycle = none ∧
    eeInRange (eeAddress (variantBus v).regs) = true := ⟨⟨rfl, rfl⟩, rfl, rfl, rfl, (by decide : eeInRange (eeAddress withAddress.regs) = true)⟩

theorem witness_ReadCommandsLeaveEveryDeviceByte_counts : queued .normal 7 = 7 ∧ queued (.short 3) 7 < 7 ∧ queued .absent 7 < 7 ∧
    queued .normal 1 = 1 ∧ queued (.short 0) 1 = 0 := by decide

theorem witness_ReferenceRtcAutoIncrements :
    RefBus.cold.rtc.variant = .normal ∧ RefBus.cold.rtc.mem.wf = true ∧ ([0x45, 0x30] : List Byte).length ≤ 256 := by decide

theorem witness_ReferenceBusQueuesAndVariants :
    (∃ b : RefBus, b.queue = [0x45]) ∧ (∃ r : RefRtc, r.variant = .short 3) ∧ (∃ r : RefRtc, r.variant = .absent) ∧
      (∃ e : RefEeprom, e.variant = .normal ∧ e.writeCycle = none) ∧
      (∃ e : RefEeprom, e.variant = .short 0 ∧ e.writeCycle = none) ∧ (∃ e : RefEeprom, e.variant = .absent) ∧ ∃ id : DeviceId, id ≠ rtcId ∧ id ≠ eeId :=
  ⟨⟨{ RefBus.cold with queue := [0x45] }, rfl⟩, ⟨⟨[], 0, .short 3⟩, rfl⟩, ⟨⟨[], 0, .absent⟩, rfl⟩,
    ⟨⟨[], 0, .normal, none⟩, rfl, rfl⟩, ⟨⟨[], 0, .short 0, none⟩, rfl, rfl⟩, ⟨⟨[], 0, .absent, none⟩, rfl⟩, ⟨0x00, by decide, by decide⟩⟩

/-- EEW at 0x0064 on the reference bus, before call `k`, with a write awaiting SETTLE or none. -/
def eewOnReferenceBus (k : Nat) (cycle : Option (EeCell × Byte)) : State :=
  { runningAt .eew k ⟨.zero, 0x0064, 0x5A⟩ [] [] with
    env := ⟨.reference, [], [], { RefBus.cold with ee := ⟨[], 100, .normal, cycle⟩ }⟩ }

theorem witness_ResetMidCommand_open :
    ∃ s : State, s.seq = .run .eew 2 ∧ s.env.kind = .reference ∧ txnOpenAt .eew 2 = true ∧ settlingAt .eew 2 = false ∧
      s.latch.addr.getLsbD 15 = false ∧ s.env.ref.ee.writeCycle = none ∧ s.env.ref.ee.mem.wf = true :=
  ⟨eewOnReferenceBus 2 none, rfl, rfl, by decide, by decide, by decide, rfl, rfl⟩

/-- RS-7: after END and before SETTLE. -/
theorem witness_ResetMidCommand_settling :
    ∃ s : State, s.seq = .run .eew 5 ∧ s.env.kind = .reference ∧ txnOpenAt .eew 5 = false ∧ settlingAt .eew 5 = true ∧
      s.latch.addr.getLsbD 15 = false ∧
      (∀ c, s.env.ref.ee.writeCycle = some c → c = (s.latch.addr.extractLsb' 0 15, s.latch.data)) ∧
      s.env.ref.ee.mem.wf = true :=
  ⟨eewOnReferenceBus 5 (some (100, 0x5A)), rfl, rfl, by decide, by decide, by decide,
    fun _ h => (Option.some.inj h).symm.trans (by decide), rfl⟩

/-- Before the first call. -/
theorem witness_ResetMidCommand_notBegun :
    ∃ s : State, s.seq = .run .eew 0 ∧ s.env.kind = .reference ∧ txnOpenAt .eew 0 = false ∧ settlingAt .eew 0 = false ∧
      DevicesWf s.env.ref :=
  ⟨eewOnReferenceBus 0 none, rfl, rfl, by decide, by decide, ⟨rfl, rfl, rfl, rfl⟩⟩

theorem witness_ResetMidCommand_free : State.reset.env.kind = .free := rfl

theorem witness_AcceptanceMakesNoBusCall : ∃ t, exec .rtcw withRecord = .next t ∧ t.seq = .run .rtcw 0 := ⟨_, rfl, rfl⟩

theorem witness_ImmediateCommandsCompleteInTheWrite :
    Ready State.reset ∧ commandByteWellFormed 0x12 = false ∧
      (∃ s : State, Ready s ∧ s.params.checkRange = true ∧ timeInRange (timeRecord s.regs) = false) ∧
      ∃ s : State, Ready s ∧ s.params.checkRange = true ∧ eeInRange (eeAddress s.regs) = false :=
  ⟨⟨rfl, rfl⟩, by decide, ⟨State.reset, ⟨rfl, rfl⟩, rfl, by decide⟩,
    ⟨withRegs [(.eeAddrH, 0x80)], ⟨rfl, rfl⟩, rfl, by decide⟩⟩

theorem witness_ChecksAreMadeInOrder : midRtcr.status.busy = true ∧ commandByteWellFormed 0xFF = false ∧
    (withRegs [(.eeAddrH, 0x80)]).params.checkRange = true ∧ eeInRange (eeAddress (withRegs [(.eeAddrH, 0x80)]).regs) = false ∧
    timeInRange (timeRecord (withRegs [(.tDom, 0)]).regs) = false := by decide

theorem witness_SequencerSteps : ∃ t, midRtcr.seq = .run .rtcr 4 ∧ seqStep midRtcr = .next t := ⟨_, rfl, rfl⟩

theorem witness_SequencerSteps_goingOn : ∃ s t : State, s.seq = .run .eew 0 ∧ seqStep s = .next t ∧ t.seq = .run .eew 1 :=
  ⟨runningAt .eew 0 .zero [] [], _, rfl, rfl, rfl⟩

theorem witness_SequencerSteps_idle : ∃ t, State.reset.seq = .idle ∧ seqStep State.reset = .next t := ⟨_, rfl, rfl⟩

theorem witness_HostCannotDisturbARunningCommand :
    ∃ t, midRtcr.status.busy = true ∧ hostAccess (.write 0x0 0x00) midRtcr = .next t ∧ t.status.errBusy = true :=
  ⟨_, rfl, rfl, rfl⟩

theorem witness_HostAccessesNeverEndARunningCommand : midRtcr.status.busy = true := rfl

theorem witness_ResultsAreValidOnlyAfterSuccess_immediate :
    (∃ t, Ready (withRegs [(.din, 100)]) ∧ exec .enc (withRegs [(.din, 100)]) = .next t ∧ resultsValid .enc t.status = false) ∧
      ∃ t, Ready State.reset ∧ exec .dec State.reset = .next t := ⟨⟨_, ⟨rfl, rfl⟩, rfl, rfl⟩, ⟨_, ⟨rfl, rfl⟩, rfl⟩⟩

theorem witness_ResultsAreValidOnlyAfterSuccess_rtcr :
    ∃ t, Inv midRtcr ∧ midRtcr.seq = .run .rtcr 4 ∧ seqStep midRtcr = .next t ∧ t.seq = .idle ∧
      resultsValid .rtcr t.status = false := ⟨_, midRtcr_inv, rfl, rfl, rfl, rfl⟩

/-- EER at address 0x1234 before its AVAIL call. -/
def midEer (answer : Bool) : State :=
  { withAddress with
    status := busyStatus
    seq := .run .eer 5
    latch := ⟨.zero, 0x1234, 0⟩
    env := ⟨.free, [answer], [0x5A], .cold⟩
    trace := [.beginTxn eeId, .wr 0x12, .wr 0x34, .endTxn, .req eeId 1] }

theorem midEer_inv (answer : Bool) : Inv (midEer answer) := by
  refine ⟨by cases answer <;> decide, by cases answer <;> decide, (fun h => by cases h), ?_, ⟨rfl, rfl, rfl, rfl⟩, ?_⟩
  · intro op k h
    cases h
    cases answer <;> exact ⟨by decide, rfl, (by decide : (0x1234 : EeAddr) = eeAddress withAddress.regs), fun _ => by decide,
      [], by decide⟩
  · intro ev h
    simp only [midEer, List.mem_cons, List.not_mem_nil, or_false] at h
    rcases h with rfl | rfl | rfl | rfl | rfl
    · exact .inr rfl
    · trivial
    · trivial
    · trivial
    · exact .inr rfl

theorem witness_ResultsAreValidOnlyAfterSuccess_eer :
    ∃ t, Inv (midEer false) ∧ (midEer false).seq = .run .eer 5 ∧ seqStep (midEer false) = .next t ∧ t.seq = .idle ∧
      resultsValid .eer t.status = false := ⟨_, midEer_inv false, rfl, rfl, rfl, rfl⟩

theorem witness_ResultsAreValidOnlyAfterSuccess_running :
    ∃ t, Inv (midEer true) ∧ (midEer true).seq = .run .eer 5 ∧ seqStep (midEer true) = .next t ∧ t.seq ≠ .idle :=
  ⟨_, midEer_inv true, rfl, rfl, by decide⟩

/-- A running RTCR whose next call is answered true: neither order of the two steps ends the command. -/
def commuting : State := { midRtcr with env := ⟨.free, [true], [], .cold⟩ }

theorem witness_HostAndSequencerStepsCommute :
    ∃ t u v, Inv commuting ∧ commuting.status.busy = true ∧ hostAccess (.read 0x1) commuting = .next t ∧
      seqStep t = .next u ∧ seqStep commuting = .next v ∧ v.seq ≠ .idle :=
  ⟨_, _, _,
    ⟨midRtcr_inv.busyIffRunning, midRtcr_inv.statusLegal, midRtcr_inv.rangeNeedsCheck,
      fun op k h => ⟨(midRtcr_inv.running op k h).inside, (midRtcr_inv.running op k h).count,
        (midRtcr_inv.running op k h).latched, (midRtcr_inv.running op k h).checked, (midRtcr_inv.running op k h).traced⟩,
      midRtcr_inv.devices, midRtcr_inv.traceIds⟩, rfl, rfl, rfl, rfl, by decide⟩

theorem witness_OnlyEncAndDecWriteDout :
    ∃ s s', takeTurn .host s = .next s' ∧ s'.regs.dout ≠ s.regs.dout :=
  ⟨{ withRegs [(.din, 45)] with program := [.access (.write 0x0 0x10)] }, _, rfl, by decide⟩

theorem witness_ElevenEagerStepsRunRtcw : ∃ s : State, Ready s ∧ s.script = [] ∧ s.rule = .eager ∧
    (s.params.checkRange = true → timeInRange (timeRecord s.regs) = true) :=
  ⟨{ withRecord with rule := .eager }, ⟨rfl, rfl⟩, rfl, rfl, by decide⟩

theorem witness_NoStepChangesTheBuildParameters : ∃ t, step { withRecord with script := [.reset] } = .next t := ⟨_, rfl⟩

theorem witness_ResetAbandonsTheCommand : State.reset.seq = .idle := rfl

theorem witness_EveryStepKeepsTheInvariant : ∃ t, Inv midRtcr ∧ step midRtcr = .next t :=
  ⟨_, midRtcr_inv, rfl⟩

theorem witness_ErrorBitsExcludeEachOther : Inv midRtcr ∧ Inv withRecord := ⟨midRtcr_inv, withRecord_inv⟩

theorem witness_ErrorsArePrecise_write :
    (∃ t, Ready State.reset ∧ hostAccess (.write 0x0 0x12) State.reset = .next t ∧ t.status.errIll = true) ∧
      ∃ t, Ready State.reset ∧ hostAccess (.write 0x0 0x20) State.reset = .next t ∧ t.status.errRange = true :=
  ⟨⟨_, ⟨rfl, rfl⟩, rfl, rfl⟩, ⟨_, ⟨rfl, rfl⟩, rfl, rfl⟩⟩

theorem witness_ErrorsArePrecise_step :
    ∃ t, Inv midRtcr ∧ midRtcr.seq ≠ .idle ∧ seqStep midRtcr = .next t ∧ t.status.noData = true :=
  ⟨_, midRtcr_inv, by decide, rfl, rfl⟩

theorem witness_MachineNeverStops : Inv midRtcr ∧ Inv withRecord := ⟨midRtcr_inv, withRecord_inv⟩

end Sys2Proof.Tests
end

section
/-! The reserved bits of STATUS and the reserved offsets (10_state.md R24, R30). -/

namespace Sys2Proof.Machine

/-- R24: the two top bits of the STATUS byte are the constant it is built on, whatever the six flags are. -/
theorem statusByte_reservedBits (st : Status) : (statusByte st).extractLsb' 6 2 = 0#2 := by
  -- each of the six flags lies below bit 6, so the slice skips it
  unfold statusByte
  iterate 6 rw [BitVec.extractLsb'_append_eq_of_le (by decide)]
  rfl

/-- R30: the reserved offsets name no register, so a read finds nothing. -/
theorem hostRead_reserved {o : Offset} (ho : o = 0xE ∨ o = 0xF) (s : State) : hostRead s o = 0x00 := by
  obtain rfl | rfl := ho <;> rfl

/-- R30: a write to a reserved offset reaches neither a register nor a STATUS bit, so ERR_BUSY stays too. -/
theorem hostAccess_write_reserved {o : Offset} (ho : o = 0xE ∨ o = 0xF) (v : Byte) (s : State) :
    hostAccess (.write o v) s = .next s := by
  obtain rfl | rfl := ho <;> rfl

/-- Settles O10: the STATUS byte is built on two zero bits, and the port of a reserved offset neither reads nor stores. -/
theorem reservedBitsAndOffsetsReadZero : Obligations.ReservedBitsAndOffsetsReadZero :=
  ⟨fun s => statusByte_reservedBits s.status,
    fun s => ⟨hostRead_reserved (.inl rfl) s, hostRead_reserved (.inr rfl) s⟩,
    fun s v => ⟨hostAccess_write_reserved (.inl rfl) v s, hostAccess_write_reserved (.inr rfl) v s⟩⟩

end Sys2Proof.Machine
end

section
/-! The decoders: which bytes are commands (30_encoding.md R57) and which words are host accesses (R59). -/

namespace Sys2Proof

/-- R56, R57: each byte that R56 lists decodes to a command. -/
theorem decode_of_wellFormed {c : Byte} (h : commandByteWellFormed c = true) : ∃ i, decode c = .ok i := by
  simp only [commandByteWellFormed, Bool.or_eq_true, beq_iff_eq] at h
  obtain (((((rfl | rfl) | rfl) | rfl) | rfl) | rfl) | rfl := h <;> exact ⟨_, rfl⟩

/-- R57: every other byte is refused with its own name. -/
theorem decode_of_not_wellFormed {c : Byte} (h : commandByteWellFormed c = false) :
    decode c = .error (.illegalCommand c) := by
  simp only [commandByteWellFormed, Bool.or_eq_false_iff, beq_eq_false_iff_ne] at h
  simp only [decode_spec, h, if_false]

/-- R57: the bytes that are no command, as the four gaps between the seven. -/
theorem illegalRanges_of_not_wellFormed {c : Byte} (h : commandByteWellFormed c = false) :
    (0x01 ≤ c.toNat ∧ c.toNat ≤ 0x0F) ∨ (0x12 ≤ c.toNat ∧ c.toNat ≤ 0x1F) ∨ (0x22 ≤ c.toNat ∧ c.toNat ≤ 0x2F) ∨
      0x32 ≤ c.toNat := by
  simp only [commandByteWellFormed, Bool.or_eq_false_iff, beq_eq_false_iff_ne, ne_eq] at h
  bv_omega

/-- R59: the words that decode to a read of an offset. -/
theorem decodeAccess_eq_read {w : AccessWord} {o : Offset} :
    decodeAccess w = .ok (.read o) ↔ w.getLsbD 15 = false ∧ w.extractLsb' 12 3 = 0#3 ∧ w.extractLsb' 8 4 = o ∧
      w.extractLsb' 0 8 = 0#8 := by
  unfold decodeAccess
  split_ifs <;> simp_all

/-- R59: the words that decode to a write of a byte to an offset. -/
theorem decodeAccess_eq_write {w : AccessWord} {o : Offset} {v : Byte} :
    decodeAccess w = .ok (.write o v) ↔ w.getLsbD 15 = true ∧ w.extractLsb' 12 3 = 0#3 ∧ w.extractLsb' 8 4 = o ∧
      w.extractLsb' 0 8 = v := by
  unfold decodeAccess
  split_ifs <;> simp_all

/-- R59: decoding inverts encoding, and no other word decodes to the access: its four fields give the word. -/
theorem decodeAccess_eq_ok_iff (w : AccessWord) (a : HostAccess) : decodeAccess w = .ok a ↔ w = encodeAccess a := by
  cases a with
  | read o =>
    obtain ⟨e15, e12, e8, e0⟩ := encodeAccess_read_fields o
    rw [decodeAccess_eq_read]
    constructor
    · rintro ⟨h15, h12, h8, h0⟩
      exact accessWord_ext (h15.trans e15.symm) (h12.trans e12.symm) (h8.trans e8.symm) (h0.trans e0.symm)
    · rintro rfl
      exact ⟨e15, e12, e8, e0⟩
  | write o v =>
    obtain ⟨e15, e12, e8, e0⟩ := encodeAccess_write_fields o v
    rw [decodeAccess_eq_write]
    constructor
    · rintro ⟨h15, h12, h8, h0⟩
      exact accessWord_ext (h15.trans e15.symm) (h12.trans e12.symm) (h8.trans e8.symm) (h0.trans e0.symm)
    · rintro rfl
      exact ⟨e15, e12, e8, e0⟩

/-- R59: which words are host accesses at all. -/
theorem decodeAccess_isOk_iff (w : AccessWord) :
    (∃ a, decodeAccess w = .ok a) ↔ w.extractLsb' 12 3 = 0#3 ∧ (w.getLsbD 15 = false → w.extractLsb' 0 8 = 0#8) := by
  constructor
  · rintro ⟨o | ⟨o, v⟩, h⟩
    · obtain ⟨-, h12, -, h0⟩ := decodeAccess_eq_read.1 h
      exact ⟨h12, fun _ => h0⟩
    · obtain ⟨h15, h12, -, -⟩ := decodeAccess_eq_write.1 h
      exact ⟨h12, fun hf => absurd (h15.symm.trans hf) (by decide)⟩
  · rintro ⟨h12, h0⟩
    cases h15 : w.getLsbD 15 with
    | false => exact ⟨_, decodeAccess_eq_read.2 ⟨h15, h12, rfl, h0 h15⟩⟩
    | true => exact ⟨_, decodeAccess_eq_write.2 ⟨h15, h12, rfl, rfl⟩⟩

/-- Settles O4: a word is given by its direction, reserved bits, offset and data, which are the fields the decoder tests. -/
theorem accessWordFormat : Obligations.AccessWordFormat := by
  refine ⟨decodeAccess_eq_ok_iff, decodeAccess_isOk_iff, fun w o h => ?_, fun w o v h => ?_, by decide, by decide, by decide⟩
  · obtain ⟨h15, -, h8, -⟩ := decodeAccess_eq_read.1 h
    exact ⟨h15, h8.symm⟩
  · obtain ⟨h15, -, h8, h0⟩ := decodeAccess_eq_write.1 h
    exact ⟨h15, h8.symm, h0.symm⟩

end Sys2Proof
end

section
/-! Accepting writes while no command runs (43_command_control.md R96, R102): the checks that end a command there. -/

namespace Sys2Proof.Machine

/-- A command that ends in its accepting write leaves SEQ idle, as it was. -/
theorem Ready.withStatus_idle {s : State} (h : Ready s) (st : Status) :
    { s with status := st, seq := .idle } = { s with status := st } := by
  rw [← h.idle]

/-- R82, R91: a command with a range check passes it, or is not checked. -/
theorem not_rangeError_iff {check inRange : Bool} : ¬(check && !inRange) = true ↔ (check = true → inRange = true) := by
  cases check <;> simp

/-- R102: an illegal byte ends in the accepting write with DONE and ERR_ILL, and touches STATUS alone. -/
theorem hostAccess_write_illegal {c : Byte} {s : State} (hc : decode c = .error (.illegalCommand c)) (h : Ready s) :
    hostAccess (.write 0x0 c) s = .next { s with status := illegalStatus } := by
  have hwrite : hostAccess (.write 0x0 c) s = hostWriteCmd c s := rfl
  rw [hwrite, hostWriteCmd, hc]
  exact (illegalCommand_idle h.notBusy).trans (congrArg _ (h.withStatus_idle _))

/-- Settles O3: the seven commands and the four ranges between them cover the bytes, and an illegal byte raises the error. -/
theorem otherBytesAreIllegalCommands : Obligations.OtherBytesAreIllegalCommands := by
  intro c
  cases hwf : commandByteWellFormed c with
  | true => exact .inl ⟨rfl, decode_of_wellFormed hwf⟩
  | false =>
    have hdecode := decode_of_not_wellFormed hwf
    exact .inr ⟨illegalRanges_of_not_wellFormed hwf, hdecode, by decide, fun s hs => hostAccess_write_illegal hdecode hs⟩

end Sys2Proof.Machine
end

section
/-! The EEPROM address operand and its frame bytes (30_encoding.md R65, R66, 42_eeprom_framer.md R87, R88). -/

namespace Sys2Proof.Machine

/-- R65: the operand's value from its two registers. -/
theorem toNat_eeAddress (f : RegFile) : (eeAddress f).toNat = 256 * f.eeAddrH.val.toNat + f.eeAddrL.val.toNat := by
  have happend : (eeAddress f).toNat = (f.eeAddrH.val ++ f.eeAddrL.val : BitVec (8 + 8)).toNat := rfl
  rw [happend, BitVec.toNat_append, ← Nat.shiftLeft_add_eq_or_of_lt f.eeAddrL.val.isLt, Nat.shiftLeft_eq]
  omega

/-- R88: the high frame byte. -/
theorem toNat_addrHi (a : EeAddr) : (addrHi a).toNat = a.toNat / 256 := by
  have ha := a.isLt
  rw [addrHi, BitVec.extractLsb'_toNat, Nat.shiftRight_eq_div_pow]
  omega

/-- R88: the low frame byte. -/
theorem toNat_addrLo (a : EeAddr) : (addrLo a).toNat = a.toNat % 256 := by
  rw [addrLo, BitVec.extractLsb'_toNat, Nat.shiftRight_zero]

/-- R87: the range check as a bound. -/
theorem eeInRange_iff (a : EeAddr) : eeInRange a = true ↔ a.toNat ≤ 32767 := decide_eq_true_iff

/-- R87, R88: an address is in range exactly when bit 15 is clear. -/
theorem eeInRange_iff_bit15 (a : EeAddr) : eeInRange a = true ↔ a.getLsbD 15 = false := by
  have hmsb : a.getLsbD 15 = decide (2 ^ 15 ≤ a.toNat) := BitVec.msb_eq_decide a
  rw [eeInRange_iff, hmsb, decide_eq_false_iff_not]
  omega

/-- R88: bit 15 of the address is sent, as the top bit of the high frame byte. -/
theorem addrHi_bit7 (a : EeAddr) : (addrHi a).getLsbD 7 = a.getLsbD 15 := by
  rw [addrHi, BitVec.getLsbD_extractLsb']
  rfl

/-- Settles O34: each clause is a law of the address, and both frames begin with BEGIN and its two bytes. -/
theorem eepromAddressFrame : Obligations.EepromAddressFrame :=
  ⟨toNat_eeAddress, fun f => ⟨addrHi_eeAddress f, addrLo_eeAddress f⟩, fun a => ⟨toNat_addrHi a, toNat_addrLo a⟩,
    eeInRange_iff_bit15, addrHi_bit7, by decide, by decide, fun _ _ => ⟨rfl, rfl⟩⟩

end Sys2Proof.Machine
end

section
/-! Runs of the sequencer in any bus environment (43_command_control.md R99): a running command is described by the list of bus
events it has caused, one per sequencer step, of which the environment chose only the answers. -/

namespace Sys2Proof.Machine

/-- R13: the event of a call to which the environment has no answer to give. -/
def fixedEvent : BusCall → Option BusEvent
  | .beginTxn id => some (.beginTxn id)
  | .write b => some (.wr b)
  | .endTxn => some .endTxn
  | .request id n => some (.req id n)
  | .settle => some .settle
  | .avail | .read => none

/-- R13: such a call records that event in every environment. -/
theorem eventOf_fixedEvent {c : BusCall} {ev ev' : BusEvent} (hc : fixedEvent c = some ev) (h : eventOf c ev') : ev' = ev := by
  cases c <;> simp_all [fixedEvent, eventOf]

/-- Only an availability question can be answered "no byte". -/
theorem ne_availFalse_of_eventOf {c : BusCall} {ev : BusEvent} (hc : c ≠ .avail) (h : eventOf c ev) : ev ≠ .avail false := by
  rintro rfl
  cases c <;> simp_all [eventOf]

theorem eventOf_endTxn_iff {c : BusCall} : eventOf c .endTxn ↔ c = .endTxn := by
  cases c <;> simp [eventOf]

theorem eventOf_settle_iff {c : BusCall} : eventOf c .settle ↔ c = .settle := by
  cases c <;> simp [eventOf]

/-- R13: the byte an event brings from the bus. -/
def byteRead : BusEvent → Option Byte
  | .rd b => some b
  | .beginTxn _ | .wr _ | .endTxn | .req _ _ | .avail _ | .settle => none

/-- The bytes read from the bus, in order. -/
def bytesRead (evs : List BusEvent) : List Byte := evs.filterMap byteRead

theorem bytesRead_concat (evs : List BusEvent) (ev : BusEvent) :
    bytesRead (evs ++ [ev]) = bytesRead evs ++ (byteRead ev).toList := by
  cases h : byteRead ev <;> simp [bytesRead, h]

/-- R83, R92: the state once the byte of an event, if it brings one, is in RBUF. -/
def received (ev : BusEvent) (s : State) : State :=
  match byteRead ev with
  | some b => storeByte b s
  | none => s

/-- R99: unless no byte is available, a step goes on from what the call brought. -/
theorem afterCall_eq_advance (op : SeqOp) (k : Nat) {ev : BusEvent} (s : State) (h : ev ≠ .avail false) :
    afterCall op k ev s = advance op k (received ev s) := by
  cases ev with
  | avail r => cases r with
    | false => exact absurd rfl h
    | true => rfl
  | beginTxn _ | wr _ | endTxn | req _ _ | rd _ | settle => rfl

/-- R83: storing byte `i` extends the first `i` bytes of RBUF. -/
theorem take_setByte7 (t : Bytes7) {i : Nat} (b : Byte) (hi : i < 7) :
    (listOfBytes7 (setByte7 t i b)).take (i + 1) = (listOfBytes7 t).take i ++ [b] := by
  match i, hi with
  | 0, _ | 1, _ | 2, _ | 3, _ | 4, _ | 5, _ | 6, _ => rfl

/-- `x` is the accepted command's state `t` after the bus events `evs`, whatever SEQ and the environment are: only the trace,
RBUF, RCNT and the settle timer have changed, each as the events say. -/
structure After (t : State) (evs : List BusEvent) (x : State) : Prop where
  status : x.status = busyStatus
  regs : x.regs = t.regs
  params : x.params = t.params
  latch : x.latch = t.latch
  program : x.program = t.program
  reads : x.reads = t.reads
  trace : x.trace = t.trace ++ evs
  rcnt : x.rcnt = (bytesRead evs).length
  rbuf : (bytesRead evs).length ≤ 7 → (listOfBytes7 x.rbuf).take (bytesRead evs).length = bytesRead evs
  ended : evs.getLast? = some .endTxn → x.settleTimer = 0
  settled : evs.getLast? = some .settle → Config.tWr ≤ x.settleTimer

/-- R13, R33: after the END the settle timer is 0, and after the SETTLE it has reached T_WR. -/
theorem settleTimer_busCall (c : BusCall) (s : State) :
    ((busCall c s).1 = .endTxn → (busCall c s).2.settleTimer = 0) ∧
    ((busCall c s).1 = .settle → Config.tWr ≤ (busCall c s).2.settleTimer) := by
  have hev : eventOf c (busCall c s).1 := eventOf_envCall s.draws s.env c
  constructor <;> intro h <;> rw [h] at hev
  · obtain rfl := eventOf_endTxn_iff.1 hev
    rfl
  · obtain rfl := eventOf_settle_iff.1 hev
    exact (Nat.le_add_right _ _).trans (Nat.le_add_left _ _)

/-- R13, R83: one more call adds its event, and its byte if it brings one. -/
theorem After.call {t x : State} {evs : List BusEvent} (h : After t evs x) (c : BusCall) :
    After t (evs ++ [(busCall c x).1]) (received (busCall c x).1 (busCall c x).2) := by
  obtain ⟨hend, hsettle⟩ := settleTimer_busCall c x
  have htrace : (busCall c x).2.trace = t.trace ++ (evs ++ [(busCall c x).1]) := by
    rw [busCall_trace, h.trace, List.append_assoc, busCall_event]
  have hbytes := bytesRead_concat evs (busCall c x).1
  generalize (busCall c x).1 = ev at *
  unfold received
  cases hb : byteRead ev with
  | none =>
    rw [hb, Option.toList_none, List.append_nil] at hbytes
    exact ⟨h.status, h.regs, h.params, h.latch, h.program, h.reads, htrace, by rw [hbytes]; exact h.rcnt,
      by rw [hbytes]; exact h.rbuf, by simpa using hend, by simpa using hsettle⟩
  | some b =>
    rw [hb, Option.toList_some] at hbytes
    refine ⟨h.status, h.regs, h.params, h.latch, h.program, h.reads, htrace, ?_, ?_, by simpa using hend,
      by simpa using hsettle⟩
    · rw [hbytes, List.length_append, storeByte_rcnt, busCall_rcnt, h.rcnt, List.length_singleton]
    · intro hlen
      rw [hbytes, List.length_append, List.length_singleton] at hlen ⊢
      rw [storeByte_rbuf, busCall_rcnt, h.rcnt, take_setByte7 _ b (by omega), busCall_rbuf, h.rbuf (by omega)]

/-- R100: STATUS once a command that has met no error completes. -/
theorem After.status_complete {t x : State} {evs : List BusEvent} (h : After t evs x) (ws : List (Reg × Byte)) :
    (complete ws x).status = doneStatus := by
  rw [complete_status, h.status, statusComplete_busyStatus]

/-- R107: STATUS once a command ends for want of a byte. -/
theorem After.status_noData {t x : State} {evs : List BusEvent} (h : After t evs x) :
    (raiseError .noData x).status = noDataStatus := by
  rw [raiseError_status, h.status, statusError_noData_busyStatus]

/-- R31, R99: `t` is an accepted command that runs `op`, and `x` is where it stands after the steps that made `evs`, one event
each, BUSY and with its registers untouched all the while. -/
structure Running (t : State) (op : SeqOp) (evs : List BusEvent) (x : State) : Prop where
  busyUntil : ∀ n ≤ evs.length,
    ∃ y, seqSteps n t = .next y ∧ y.status = busyStatus ∧ y.seq = .run op n ∧ y.regs = t.regs
  steps : seqSteps evs.length t = .next x
  seq : x.seq = .run op evs.length
  after : After t evs x

/-- R96: a command just accepted has made no call. -/
theorem running_nil {t : State} {op : SeqOp} (hst : t.status = busyStatus) (hseq : t.seq = .run op 0) (hcnt : t.rcnt = 0) :
    Running t op [] t where
  busyUntil n hn := ⟨t, by rw [Nat.le_zero.1 hn]; rfl, hst, by rw [Nat.le_zero.1 hn]; exact hseq, rfl⟩
  steps := rfl
  seq := hseq
  after := ⟨hst, rfl, rfl, rfl, rfl, rfl, (List.append_nil _).symm, hcnt, fun _ => rfl, nofun, nofun⟩

section
variable {t x : State} {op : SeqOp} {evs : List BusEvent} {c : BusCall}

theorem Running.steps_succ (h : Running t op evs x) {y : State} (hy : seqStep x = .next y) :
    seqSteps (evs.length + 1) t = .next y := by
  rw [seqSteps_add evs.length 1 h.steps, seqSteps_succ 0 hy]
  rfl

/-- R99: one step of a running command: call number `evs.length` of its frame. -/
theorem Running.step (h : Running t op evs x) (hc : (frame t.params op t.latch)[evs.length]? = some c) :
    ∃ ev y, eventOf c ev ∧ After t (evs ++ [ev]) y ∧
      ((ev = .avail false ∧ seqStep x = .next (raiseError .noData y)) ∨
        (ev ≠ .avail false ∧ seqStep x = .next (advance op evs.length y))) := by
  refine ⟨(busCall c x).1, received (busCall c x).1 (busCall c x).2, eventOf_envCall x.draws x.env c, h.after.call c, ?_⟩
  have hstep : seqStep x = .next (afterCall op evs.length (busCall c x).1 (busCall c x).2) := by
    rw [seqStep_run h.seq, h.after.params, h.after.latch, hc]
  by_cases hev : (busCall c x).1 = .avail false
  · refine .inl ⟨hev, hstep.trans ?_⟩
    rw [hev]
    rfl
  · exact .inr ⟨hev, hstep.trans (congrArg _ (afterCall_eq_advance op _ _ hev))⟩

/-- R99: a step that is not the frame's last, and is not told that no byte is available, leaves the command running. -/
theorem Running.of_advance (h : Running t op evs x) {ev : BusEvent} {y : State} (hy : After t (evs ++ [ev]) y)
    (hmore : evs.length + 1 < (frame t.params op t.latch).length) (hstep : seqStep x = .next (advance op evs.length y)) :
    Running t op (evs ++ [ev]) { y with seq := .run op (evs.length + 1) } := by
  have hadv : advance op evs.length y = { y with seq := .run op (evs.length + 1) } := by
    rw [advance, hy.params, hy.latch, if_neg hmore.ne]
  have hlen : (evs ++ [ev]).length = evs.length + 1 := List.length_append
  have hsteps := h.steps_succ (hstep.trans (congrArg _ hadv))
  refine ⟨fun n hn => ?_, by rw [hlen]; exact hsteps, by rw [hlen], { hy with }⟩
  obtain hn | rfl : n ≤ evs.length ∨ n = evs.length + 1 := by omega
  · exact h.busyUntil n hn
  · exact ⟨_, hsteps, hy.status, rfl, hy.regs⟩

/-- R63, R64, R67, R68: the calls of a frame that have no answer are made in order, in every environment. -/
theorem exists_running_of_fixed (ht : Running t op [] t)
    (hcalls : evs.map some <+: (frame t.params op t.latch).map fixedEvent)
    (hmore : evs.length < (frame t.params op t.latch).length) : ∃ y, Running t op evs y := by
  induction evs using List.reverseRecOn with
  | nil => exact ⟨t, ht⟩
  | append_singleton evs ev ih =>
    obtain ⟨rest, hrest⟩ := hcalls
    rw [List.length_append, List.length_singleton] at hmore
    obtain ⟨y, hy⟩ := ih ⟨some ev :: rest, by simpa using hrest⟩ (by omega)
    have hnext : ((frame t.params op t.latch).map fixedEvent)[evs.length]? = some (some ev) := by
      simp [← hrest]
    rw [List.getElem?_map, Option.map_eq_some_iff] at hnext
    obtain ⟨c, hc, hfix⟩ := hnext
    obtain ⟨ev', z, hev, hz, ⟨rfl, -⟩ | ⟨-, hstep⟩⟩ := hy.step hc <;> obtain rfl := eventOf_fixedEvent hfix hev
    · cases c <;> simp [fixedEvent] at hfix
    · exact ⟨_, hy.of_advance hz hmore hstep⟩

/-- R83, R92: an availability question ends the command with NODATA, or leaves it running. -/
theorem Running.avail (h : Running t op evs x) (hc : (frame t.params op t.latch)[evs.length]? = some .avail)
    (hmore : evs.length + 1 < (frame t.params op t.latch).length) :
    (∃ y, After t (evs ++ [.avail false]) y ∧ seqStep x = .next (raiseError .noData y)) ∨
      ∃ y, Running t op (evs ++ [.avail true]) y := by
  obtain ⟨ev, y, ⟨r, rfl⟩, hy, ⟨hev, hstep⟩ | ⟨hev, hstep⟩⟩ := h.step hc
  · exact .inl ⟨y, hev ▸ hy, hstep⟩
  · obtain rfl : r = true := by simpa using hev
    exact .inr ⟨_, h.of_advance hy hmore hstep⟩

/-- R83: a read that is not the frame's last call leaves the command running. -/
theorem Running.read (h : Running t op evs x) (hc : (frame t.params op t.latch)[evs.length]? = some .read)
    (hmore : evs.length + 1 < (frame t.params op t.latch).length) : ∃ b y, Running t op (evs ++ [.rd b]) y := by
  obtain ⟨ev, y, ⟨b, rfl⟩, hy, ⟨hev, -⟩ | ⟨-, hstep⟩⟩ := h.step hc
  · cases hev
  · exact ⟨b, _, h.of_advance hy hmore hstep⟩

/-- R99, R100: the step that makes the frame's last call completes the command. -/
theorem Running.last (h : Running t op evs x) (hc : (frame t.params op t.latch)[evs.length]? = some c) (hav : c ≠ .avail)
    (hlast : evs.length + 1 = (frame t.params op t.latch).length) :
    ∃ ev y, eventOf c ev ∧ After t (evs ++ [ev]) y ∧ seqStep x = .next (complete (results op y.rbuf) y) := by
  obtain ⟨ev, y, hev, hy, ⟨hf, -⟩ | ⟨-, hstep⟩⟩ := h.step hc
  · exact absurd hf (ne_availFalse_of_eventOf hav hev)
  · refine ⟨ev, y, hev, hy, hstep.trans ?_⟩
    rw [advance, hy.params, hy.latch, if_pos hlast]

end

end Sys2Proof.Machine
end

section
/-! RTCW (30_encoding.md R63, 41_rtc_register_mux.md R82): the accepting write, and the frame sent in ten steps. -/

namespace Sys2Proof.Machine

/-- R97: while BUSY a write to an RW register is dropped. -/
theorem hostAccess_write_reg_busy {r : Reg} (hr : hostWritable r = true) (v : Byte) {s : State} (hb : s.status.busy = true) :
    hostAccess (.write (regOffset r) v) s = .next { s with status := { s.status with errBusy := true } } := by
  have hwrite : hostAccess (.write (regOffset r) v) s = .next (hostWriteReg r v s) := by
    simp [hostAccess, hostWrite]
  rw [hwrite, hostWriteReg, if_pos hr, if_pos hb]
  rfl

/-- R15, R56: the host may write every operand register. -/
theorem hostWritable_of_mem_operandRegs {i : Instr} {r : Reg} (h : r ∈ operandRegs i) : hostWritable r = true := by
  revert r
  cases i <;> decide

/-- R82: RTCW's check, in the accepting write. -/
theorem execRtcw_rangeError {s : State} (h : Ready s) (hp : s.params.checkRange = true)
    (hr : timeInRange (timeRecord s.regs) = false) : exec .rtcw s = .next { s with status := rangeErrorStatus } := by
  have hexec := execRtcw_idle h.notBusy
  rw [hp, hr, if_pos (by decide), h.withStatus_idle] at hexec
  exact hexec

/-- R32, R82, R96: the state of an accepted RTCW. -/
def startedRtcw (s : State) : State :=
  { s with status := busyStatus, seq := .run .rtcw 0, latch := ⟨timeRecord s.regs, 0, 0⟩, rbuf := .zero, rcnt := 0 }

/-- R82: an RTCW that passes its check, or is not checked, is started. -/
theorem execRtcw_started {s : State} (h : Ready s) (hr : s.params.checkRange = true → timeInRange (timeRecord s.regs) = true) :
    exec .rtcw s = .next (startedRtcw s) := by
  have hexec := execRtcw_idle h.notBusy
  rwa [if_neg (not_rangeError_iff.2 hr)] at hexec

/-- R63: the events of RTCW's frame up to the END. -/
def rtcwEvents (p : Params) (t : Bytes7) : List BusEvent :=
  [.beginTxn rtcId, .wr rtcBase, .wr (encByte p t.b0), .wr (encByte p t.b1), .wr (encByte p t.b2), .wr (encByte p t.b3),
    .wr (encByte p t.b4), .wr (encByte p t.b5), .wr (encByte p t.b6)]

/-- R63, R82: RTCW holds BUSY through nine steps and completes in the tenth, whatever the environment does. -/
theorem rtcw_run (s : State) :
    ∃ x y, Running (startedRtcw s) .rtcw (rtcwEvents s.params (timeRecord s.regs)) x ∧
      After (startedRtcw s) (rtcwEvents s.params (timeRecord s.regs) ++ [.endTxn]) y ∧
      seqSteps 10 (startedRtcw s) = .next (complete [] y) := by
  obtain ⟨x, hx⟩ := exists_running_of_fixed (evs := rtcwEvents s.params (timeRecord s.regs))
    (running_nil (t := startedRtcw s) (op := .rtcw) rfl rfl rfl) ⟨[some .endTxn], rfl⟩ (by decide : 9 < 10)
  obtain ⟨ev, y, hev, hy, hstep⟩ := hx.last (c := .endTxn) rfl (by decide) rfl
  obtain rfl : ev = .endTxn := hev
  exact ⟨x, y, hx, hy, hx.steps_succ hstep⟩

/-- Settles O25: the accepting write checks and latches the record, and the ten calls of the frame have no answer. -/
theorem rtcwSendsTheEncodedRecord : Obligations.RtcwSendsTheEncodedRecord := by
  refine ⟨fun s => execRtcw_rangeError, fun s hs hr => ?_, fun p v hv => if_pos hv, fun p v hv => if_neg (by omega),
    by decide, fun s r v hr hb => hostAccess_write_reg_busy (hostWritable_of_mem_operandRegs hr) v hb,
    by decide, by decide, by decide, by decide⟩
  obtain ⟨x, y, hx, hy, hsteps⟩ := rtcw_run s
  exact ⟨startedRtcw s, complete [] y, execRtcw_started hs hr, rfl, hx.busyUntil, hsteps, hy.status_complete [], rfl,
    hy.regs, hy.params, hy.program, hy.reads, hy.trace⟩

end Sys2Proof.Machine
end

section
/-! EEW (30_encoding.md R67, 42_eeprom_framer.md R91): the accepting write, the frame sent in five steps, and the settle hold. -/

namespace Sys2Proof.Machine

/-- R91: EEW's check, in the accepting write. -/
theorem execEew_rangeError {s : State} (h : Ready s) (hp : s.params.checkRange = true)
    (hr : eeInRange (eeAddress s.regs) = false) : exec .eew s = .next { s with status := rangeErrorStatus } := by
  have hexec := execEew_idle h.notBusy
  rw [hp, hr, if_pos (by decide), h.withStatus_idle] at hexec
  exact hexec

/-- R32, R91, R96: the state of an accepted EEW. -/
def startedEew (s : State) : State :=
  { s with
    status := busyStatus
    seq := .run .eew 0
    latch := ⟨.zero, eeAddress s.regs, regVal s.regs .eeData⟩
    rbuf := .zero
    rcnt := 0 }

/-- R91: an EEW that passes its check, or is not checked, is started. -/
theorem execEew_started {s : State} (h : Ready s) (hr : s.params.checkRange = true → eeInRange (eeAddress s.regs) = true) :
    exec .eew s = .next (startedEew s) := by
  have hexec := execEew_idle h.notBusy
  rwa [if_neg (not_rangeError_iff.2 hr)] at hexec

/-- R67: the events of EEW's frame up to the END, as the operand registers give them. -/
def eewEvents (f : RegFile) : List BusEvent :=
  [.beginTxn eeId, .wr f.eeAddrH.val, .wr f.eeAddrL.val, .wr f.eeData.val, .endTxn]

/-- R66, R67: the frame of an accepted EEW, as the operand registers give it. -/
theorem frame_startedEew (s : State) : frame (startedEew s).params .eew (startedEew s).latch =
    [.beginTxn eeId, .write s.regs.eeAddrH.val, .write s.regs.eeAddrL.val, .write s.regs.eeData.val, .endTxn, .settle] := by
  have hframe : frame (startedEew s).params .eew (startedEew s).latch =
    eewFrame (eeAddress s.regs) s.regs.eeData.val := rfl
  rw [hframe, eewFrame, addrHi_eeAddress, addrLo_eeAddress]

/-- R67, R91: EEW holds BUSY through the five steps of its frame and the settle hold, and completes at its end, whatever the
environment does. -/
theorem eew_run (s : State) :
    ∃ x y, Running (startedEew s) .eew (eewEvents s.regs) x ∧ After (startedEew s) (eewEvents s.regs ++ [.settle]) y ∧
      seqStep x = .next (complete [] y) := by
  have hframe := frame_startedEew s
  obtain ⟨x, hx⟩ := exists_running_of_fixed (evs := eewEvents s.regs)
    (running_nil (t := startedEew s) (op := .eew) rfl rfl rfl) ⟨[some .settle], by rw [hframe]; rfl⟩ (by rw [hframe]; exact (by decide : 5 < 6))
  obtain ⟨ev, y, hev, hy, hstep⟩ := hx.last (c := .settle) (by rw [hframe]; rfl) (by decide) (by rw [hframe]; rfl)
  obtain rfl : ev = .settle := hev
  exact ⟨x, y, hx, hy, hstep⟩

/-- Settles O35: the accepting write checks and latches the operands, and the six calls of the frame have no answer. -/
theorem eewSendsAddressAndByteAndSettles : Obligations.EewSendsAddressAndByteAndSettles := by
  refine ⟨fun s => execEew_rangeError, fun s hs hr => ?_, eeInRange_iff, toNat_eeAddress,
    by decide, by decide, by decide, by decide⟩
  obtain ⟨x, y, hx, hy, hstep⟩ := eew_run s
  have htrace : (complete [] y).trace = x.trace ++ [.settle] := by
    rw [complete_trace, hy.trace, hx.after.trace, List.append_assoc]
  exact ⟨startedEew s, x, complete [] y, execEew_started hs hr, rfl, hx.busyUntil, hx.steps, hx.after.ended rfl,
    hx.after.trace, hstep, hy.status_complete [], rfl, hy.regs, hy.params, hy.program, hy.reads, htrace, hy.settled rfl,
    Nat.succ_pos _⟩

end Sys2Proof.Machine
end

section
/-! RTCR (30_encoding.md R64, 41_rtc_register_mux.md R83): the request, then up to seven rounds of one question and one read. -/

namespace Sys2Proof.Machine

/-- R70: the decoder function as arithmetic. -/
theorem toNat_dec (v : Byte) : (dec v).toNat = (v.toNat / 16) * 10 + v.toNat % 16 := by
  have hv := v.isLt
  have hhi : v.toNat / 16 % 16 = v.toNat / 16 := Nat.mod_eq_of_lt (by omega)
  simp only [dec, trunc8, decNat, BitVec.toNat_ofNat, BitVec.extractLsb'_toNat, Nat.shiftRight_eq_div_pow, Nat.reducePow,
    Nat.div_one, hhi]
  omega

/-- R79, R81: only the second and the hour are masked. -/
theorem unpack_eq (b : Bytes7) :
    unpack b = ⟨dec (b.b0 &&& 0x7F), dec b.b1, dec (b.b2 &&& 0x3F), dec b.b3, dec b.b4, dec b.b5, dec b.b6⟩ := by
  have hall (v : Byte) : v &&& 0xFF = v := BitVec.and_allOnes
  simp only [unpack, mapBytes7, mask, hall]

/-- R83, R96: the state of an accepted RTCR. -/
def startedRtcr (s : State) : State :=
  { s with status := busyStatus, seq := .run .rtcr 0, latch := .zero, rbuf := .zero, rcnt := 0 }

/-- R83: RTCR has no operand and no check. -/
theorem execRtcr_started {s : State} (h : Ready s) : exec .rtcr s = .next (startedRtcr s) := execRtcr_idle h.notBusy

/-- R64: the events of RTCR once the bytes `bs` have come. -/
def rtcrEvents (bs : List Byte) : List BusEvent :=
  [.beginTxn rtcId, .wr rtcBase, .endTxn, .req rtcId rtcNreg] ++ bs.flatMap fun v => [.avail true, .rd v]

theorem length_rtcrEvents (bs : List Byte) : (rtcrEvents bs).length = 4 + 2 * bs.length := by
  simp [rtcrEvents, List.length_flatMap]
  omega

theorem rtcrEvents_concat (bs : List Byte) (b : Byte) : rtcrEvents (bs ++ [b]) = rtcrEvents bs ++ [.avail true] ++ [.rd b] := by
  simp [rtcrEvents]

theorem bytesRead_rtcrEvents (bs : List Byte) : bytesRead (rtcrEvents bs) = bs := by
  induction bs using List.reverseRecOn with
  | nil => rfl
  | append_singleton bs b ih =>
    rw [rtcrEvents_concat, bytesRead_concat, bytesRead_concat, ih]
    simp [byteRead]

/-- R64: a trace with RTCR's events at its end, written out. -/
theorem append_rtcrEvents (past : List BusEvent) (bs : List Byte) : past ++ rtcrEvents bs =
    past ++ [.beginTxn 0x68, .wr 0x00, .endTxn, .req 0x68 7] ++ bs.flatMap fun v => [.avail true, .rd v] :=
  (List.append_assoc _ _ _).symm

/-- R64: the two calls of each round. -/
theorem rtcrFrame_round {i : Nat} (hi : i < 7) :
    rtcrFrame[4 + 2 * i]? = some .avail ∧ rtcrFrame[4 + 2 * i + 1]? = some .read := by
  revert i
  decide

theorem rtcrFrame_length : rtcrFrame.length = 18 := rfl

/-- R83, R107: RTCR, started in `t`, ends for want of a byte after the bytes `bs`. -/
def EndsWithoutByte (t : State) (bs : List Byte) : Prop :=
  ∃ x y, Running t .rtcr (rtcrEvents bs) x ∧ After t (rtcrEvents bs ++ [.avail false]) y ∧
    seqStep x = .next (raiseError .noData y)

section
variable {t : State} {bs : List Byte}

/-- R83: the question of a round. -/
theorem rtcr_question {x : State} (h : Running t .rtcr (rtcrEvents bs) x) (hbs : bs.length < 7) :
    EndsWithoutByte t bs ∨ ∃ y, Running t .rtcr (rtcrEvents bs ++ [.avail true]) y := by
  have hlen := length_rtcrEvents bs
  have hcall : rtcrFrame[(rtcrEvents bs).length]? = some .avail := by rw [hlen]; exact (rtcrFrame_round hbs).1
  have hmore : (rtcrEvents bs).length + 1 < rtcrFrame.length := by rw [hlen, rtcrFrame_length]; omega
  obtain ⟨y, hy, hstep⟩ | hy := h.avail hcall hmore
  · exact .inl ⟨x, y, h, hy, hstep⟩
  · exact .inr hy

/-- R83: the call that follows a question answered "yes". -/
theorem rtcrFrame_read (hbs : bs.length < 7) : rtcrFrame[(rtcrEvents bs ++ [BusEvent.avail true]).length]? = some .read := by
  rw [List.length_append, length_rtcrEvents]
  exact (rtcrFrame_round hbs).2

/-- R83: after `n < 7` rounds RTCR has read `n` bytes and goes on, or it has ended for want of a byte. -/
theorem rtcr_rounds (ht : Running t .rtcr [] t) {n : Nat} (hn : n < 7) :
    (∃ bs, bs.length < 7 ∧ EndsWithoutByte t bs) ∨ ∃ bs x, bs.length = n ∧ Running t .rtcr (rtcrEvents bs) x := by
  induction n with
  | zero =>
    obtain ⟨x, hx⟩ := exists_running_of_fixed (evs := rtcrEvents []) ht ⟨List.drop 4 (rtcrFrame.map fixedEvent), rfl⟩
      (by decide : 4 < 18)
    exact .inr ⟨[], x, rfl, hx⟩
  | succ n ih =>
    obtain hend | ⟨bs, x, rfl, hx⟩ := ih (by omega)
    · exact .inl hend
    obtain hend | ⟨y, hy⟩ := rtcr_question hx (by omega)
    · exact .inl ⟨bs, by omega, hend⟩
    have hmore : (rtcrEvents bs ++ [BusEvent.avail true]).length + 1 < rtcrFrame.length := by
      rw [List.length_append, length_rtcrEvents, List.length_singleton, rtcrFrame_length]
      omega
    obtain ⟨b, z, hz⟩ := hy.read (rtcrFrame_read (by omega)) hmore
    exact .inr ⟨bs ++ [b], z, List.length_append, rtcrEvents_concat bs b ▸ hz⟩

/-- R83: RTCR ends for want of a byte, or its last step completes it with the seven bytes of RBUF. -/
theorem rtcr_run (ht : Running t .rtcr [] t) :
    (∃ bs, bs.length < 7 ∧ EndsWithoutByte t bs) ∨
      ∃ evs x y, evs.length = 17 ∧ Running t .rtcr evs x ∧ After t (rtcrEvents (listOfBytes7 y.rbuf)) y ∧
        seqStep x = .next (complete (rtcrResults y.rbuf) y) := by
  obtain hend | ⟨bs, x, hbs, hx⟩ := rtcr_rounds ht (n := 6) (by decide)
  · exact .inl hend
  obtain hend | ⟨y, hy⟩ := rtcr_question hx (by omega)
  · exact .inl ⟨bs, by omega, hend⟩
  have hlen : (rtcrEvents bs ++ [BusEvent.avail true]).length = 17 := by
    rw [List.length_append, length_rtcrEvents, hbs]
    rfl
  obtain ⟨ev, z, ⟨b, rfl⟩, hz, hstep⟩ := hy.last (c := .read) (rtcrFrame_read (by omega)) (by decide) (by rw [hlen]; rfl)
  rw [← rtcrEvents_concat] at hz
  have hrbuf : listOfBytes7 z.rbuf = bs ++ [b] := by
    have hread := hz.rbuf
    rw [bytesRead_rtcrEvents, List.length_append, hbs] at hread
    exact hread (by decide : 6 + 1 ≤ 7)
  exact .inr ⟨_, y, z, hlen, hy, hrbuf ▸ hz, hstep⟩

end

/-- Settles O28: each round of RTCR reads a byte or ends the command, and RBUF holds the bytes read. -/
theorem rtcrEndsInOneOfTwoWays : Obligations.RtcrEndsInOneOfTwoWays := by
  refine ⟨fun s hs => ?_, toNat_dec, by decide, by decide, by decide, by decide, by decide, by decide, by decide,
    by decide, by decide, by decide⟩
  have hexec := execRtcr_started hs
  obtain ⟨bs, hbs, x, y, hx, hy, hstep⟩ | ⟨evs, x, y, hlen, hx, hy, hstep⟩ :=
    rtcr_run (running_nil (t := startedRtcr s) (op := .rtcr) rfl rfl rfl)
  · have hbusy := hx.busyUntil
    have hsteps := hx.steps_succ hstep
    have htrace := hy.trace
    rw [length_rtcrEvents] at hbusy hsteps
    rw [← List.append_assoc, append_rtcrEvents] at htrace
    exact ⟨startedRtcr s, raiseError .noData y, hexec, rfl, rfl, hy.params, hy.program, hy.reads,
      .inr ⟨bs, hbs, hbusy, hsteps, hy.status_noData, hy.regs, htrace⟩⟩
  · have hbusy := hx.busyUntil
    have hsteps := hx.steps_succ hstep
    have htrace := hy.trace
    rw [hlen] at hbusy hsteps
    rw [append_rtcrEvents] at htrace
    have hregs : (complete (rtcrResults y.rbuf) y).regs = regSetAll s.regs (timeWrites (unpack y.rbuf)) := by
      rw [complete_regs, hy.regs]
      rfl
    exact ⟨startedRtcr s, complete (rtcrResults y.rbuf) y, hexec, rfl, rfl, hy.params, hy.program, hy.reads,
      .inl ⟨y.rbuf, hbusy, hsteps, hy.status_complete _, unpack_eq y.rbuf ▸ hregs, htrace⟩⟩

end Sys2Proof.Machine
end

section
/-! The codec's commands (40_bcd_codec.md R74, R75): both end in the accepting write, and only DOUT and STATUS can change. -/

namespace Sys2Proof.Machine

/-- A command that ends in its accepting write with new registers leaves SEQ idle, as it was. -/
theorem Ready.withStatus_idle_regs {s : State} (h : Ready s) (st : Status) (f : RegFile) :
    { s with status := st, seq := .idle, regs := f } = { s with status := st, regs := f } := by
  rw [← h.idle]

/-- R74: an operand of at most two decimal digits is encoded into DOUT. -/
theorem execEnc_inRange {s : State} (h : Ready s) (hv : (regVal s.regs .din).toNat ≤ 99) :
    exec .enc s =
      .next { s with status := doneStatus, regs := regSet s.regs .dout (trunc8 (enc (regVal s.regs .din))) } := by
  have hexec := execEnc_idle h.notBusy
  rw [if_pos hv, h.withStatus_idle_regs] at hexec
  exact hexec

/-- R74: ENC's check, in the accepting write. -/
theorem execEnc_rangeError {s : State} (h : Ready s) (hv : 100 ≤ (regVal s.regs .din).toNat)
    (hp : s.params.checkRange = true) : exec .enc s = .next { s with status := rangeErrorStatus } := by
  have hexec := execEnc_idle h.notBusy
  rw [if_neg (by omega), if_pos hp, h.withStatus_idle] at hexec
  exact hexec

/-- R9, R74: without the check, ENC_OVF gives DOUT from 100 on. -/
theorem execEnc_overflow {s : State} (h : Ready s) (hv : 100 ≤ (regVal s.regs .din).toNat)
    (hp : s.params.checkRange = false) :
    exec .enc s =
      .next { s with status := doneStatus, regs := regSet s.regs .dout (encOvf s.params (regVal s.regs .din)) } := by
  have hexec := execEnc_idle h.notBusy
  rw [if_neg (by omega), if_neg (by simp [hp]), h.withStatus_idle_regs] at hexec
  exact hexec

/-- R9: the default ENC_OVF. -/
theorem encOvf_truncated {p : Params} (hp : p.encOvf = .truncated) (v : Byte) : encOvf p v = trunc8 (enc v) := by
  rw [encOvf, hp]

/-- Settles O19: ENC's two tests, of the operand and of CHECK_RANGE, give its three paths. -/
theorem encWritesDoutOrRaisesRangeError : Obligations.EncWritesDoutOrRaisesRangeError :=
  ⟨fun _ => execEnc_inRange, fun _ => execEnc_rangeError, fun _ => execEnc_overflow, fun _ v hp => encOvf_truncated hp v,
    by decide, by decide, by decide, by decide, by decide, by decide, by decide, by decide, by decide⟩

/-- R75: DEC has no check, so it decodes every operand into DOUT. -/
theorem execDec_ready {s : State} (h : Ready s) :
    exec .dec s = .next { s with status := doneStatus, regs := regSet s.regs .dout (dec (regVal s.regs .din)) } := by
  have hexec := execDec_idle h.notBusy
  rw [h.withStatus_idle_regs] at hexec
  exact hexec

/-- Settles O20: DEC has one path, and `dec` weighs the two nibbles. -/
theorem decWritesDout : Obligations.DecWritesDout :=
  ⟨fun _ => execDec_ready, toNat_dec, by decide, by decide, by decide, by decide, by decide, by decide, by decide,
    by decide, by decide, by decide⟩

end Sys2Proof.Machine
end

section
/-! Host writes by their offset (43_command_control.md R94, R95, R97): what the port does with the byte. -/

namespace Sys2Proof.Machine

/-- R15: a write at a register's offset is a write to that register. -/
theorem hostAccess_write_reg (r : Reg) (v : Byte) (s : State) :
    hostAccess (.write (regOffset r) v) s = .next (hostWriteReg r v s) := by
  simp [hostAccess, hostWrite]

/-- R15: DOUT is the one data register the host may not write. -/
theorem hostWritable_iff (r : Reg) : hostWritable r = true ↔ r ≠ .dout := by
  cases r <;> decide

/-- R94: while no command runs, a write to an RW register stores the byte, whatever it is. -/
theorem hostWriteReg_idle {r : Reg} (hr : r ≠ .dout) (v : Byte) {s : State} (hb : s.status.busy = false) :
    hostWriteReg r v s = { s with regs := regSet s.regs r v } := by
  rw [hostWriteReg, if_pos ((hostWritable_iff r).2 hr), if_neg (by simp [hb])]

/-- Settles O13: the write sets one register of the file, and the other registers read as before. -/
theorem hostWriteStoresAnyByte : Obligations.HostWriteStoresAnyByte := by
  intro s r v hr hb
  refine ⟨?_, regVal_regSet_same s.regs r v, fun q hq => regGet_regSet_other s.regs v hq⟩
  rw [hostAccess_write_reg, hostWriteReg_idle hr v hb]

/-- R95: STATUS is no register of the file, and a write to it is not taken. -/
theorem hostAccess_write_status (v : Byte) (s : State) : hostAccess (.write 0x1 v) s = .next s := rfl

/-- R95: a write to DOUT is not taken. -/
theorem hostAccess_write_dout (v : Byte) (s : State) : hostAccess (.write 0x3 v) s = .next s :=
  hostAccess_write_reg .dout v s

/-- Settles O14: STATUS, DOUT and the two reserved offsets each ignore a write. -/
theorem writesToReadOnlyOffsetsAreIgnored : Obligations.WritesToReadOnlyOffsetsAreIgnored := by
  rintro s v o (rfl | rfl | ho)
  · exact hostAccess_write_status v s
  · exact hostAccess_write_dout v s
  · exact hostAccess_write_reserved ho v s

/-- Settles O15: of all a host access can do, a write to CMD or an RW register while BUSY is left with being dropped. -/
theorem writesWhileBusyAreDropped : Obligations.WritesWhileBusyAreDropped := by
  intro s v o hb h1 h3 hE hF
  obtain ⟨_, ha, -⟩ | ⟨_, i, -, -, hexec⟩ | ⟨_, -, -, hill⟩ | ⟨r, _, ha, -⟩ | ⟨_, _, ha, hro, -⟩ :=
    hostAccess_cases (.write o v) s
  · cases ha
  · exact hexec.trans (exec_busy i hb)
  · exact hill.trans (accept_busy _ hb)
  · cases ha
    have hr : r ≠ .dout := by
      rintro rfl
      exact h3 rfl
    exact hostAccess_write_reg_busy ((hostWritable_iff r).2 hr) v hb
  · cases ha
    exact absurd hro (not_or.2 ⟨h1, not_or.2 ⟨hE, hF⟩⟩)

end Sys2Proof.Machine
end

section
/-! Commands that end inside their accepting write (43_command_control.md R101, R103). -/

namespace Sys2Proof.Machine

/-- R96: a command byte written to CMD runs the command it encodes. -/
theorem hostAccess_write_command {c : Byte} {i : Instr} (hc : decode c = .ok i) (s : State) :
    hostAccess (.write 0x0 c) s = exec i s := by
  have hwrite : hostAccess (.write 0x0 c) s = hostWriteCmd c s := rfl
  rw [hwrite, hostWriteCmd, hc]

/-- R101: NOP completes with no result register. -/
theorem execNop_ready {s : State} (h : Ready s) : exec .nop s = .next { s with status := doneStatus } := by
  have hexec := execNop_idle h.notBusy
  rw [h.withStatus_idle] at hexec
  exact hexec

/-- Settles O18: acceptance clears STATUS and the completion sets DONE. -/
theorem nopLeavesOnlyDone : Obligations.NopLeavesOnlyDone :=
  ⟨by decide, by decide, fun _ => execNop_ready⟩

/-- R92: EER's check, in the accepting write. -/
theorem execEer_rangeError {s : State} (h : Ready s) (hp : s.params.checkRange = true)
    (hr : eeInRange (eeAddress s.regs) = false) : exec .eer s = .next { s with status := rangeErrorStatus } := by
  have hexec := execEer_idle h.notBusy
  rw [hp, hr, if_pos (by decide), h.withStatus_idle] at hexec
  exact hexec

/-- R103: the answer of a command that is over: BUSY clear, DONE set, SEQ idle. -/
def Completed (r : Result) : Prop :=
  ∃ t, r = .next t ∧ t.status.busy = false ∧ t.status.done = true ∧ t.seq = .idle

/-- R74, R103: each of ENC's three paths is over in the accepting write, so its operand does not matter. -/
theorem completed_execEnc {s : State} (h : Ready s) : Completed (exec .enc s) := by
  by_cases hv : (regVal s.regs .din).toNat ≤ 99
  · exact ⟨_, execEnc_inRange h hv, rfl, rfl, h.idle⟩
  · have hover : 100 ≤ (regVal s.regs .din).toNat := by omega
    cases hp : s.params.checkRange with
    | true => exact ⟨_, execEnc_rangeError h hover hp, rfl, rfl, h.idle⟩
    | false => exact ⟨_, execEnc_overflow h hover hp, rfl, rfl, h.idle⟩

/-- Settles O43: each listed byte names a command without a bus call, no command, or one whose check fails. -/
theorem immediateCommandsCompleteInTheWrite : Obligations.ImmediateCommandsCompleteInTheWrite := by
  intro c s h hc
  obtain (rfl | rfl | rfl | hillegal) | ⟨hp, ⟨rfl, hr⟩ | ⟨rfl | rfl, hr⟩⟩ := hc
  · exact ⟨_, (hostAccess_write_command (by decide) s).trans (execNop_ready h), rfl, rfl, h.idle⟩
  · rw [hostAccess_write_command (i := .enc) (by decide)]
    exact completed_execEnc h
  · exact ⟨_, (hostAccess_write_command (by decide) s).trans (execDec_ready h), rfl, rfl, h.idle⟩
  · exact ⟨_, hostAccess_write_illegal (decode_of_not_wellFormed hillegal) h, rfl, rfl, h.idle⟩
  · exact ⟨_, (hostAccess_write_command (by decide) s).trans (execRtcw_rangeError h hp hr), rfl, rfl, h.idle⟩
  · exact ⟨_, (hostAccess_write_command (by decide) s).trans (execEew_rangeError h hp hr), rfl, rfl, h.idle⟩
  · exact ⟨_, (hostAccess_write_command (by decide) s).trans (execEer_rangeError h hp hr), rfl, rfl, h.idle⟩

end Sys2Proof.Machine
end

section
/-! What an accepting write and a host access can do (43_command_control.md R93 to R97), said once as a list of cases. -/

namespace Sys2Proof.Machine

/-- R96, R103: the state an accepted command leaves: completed, ended by its range check, or started. -/
inductive Accepted (i : Instr) (s : State) : State → Prop
  | completed (f : RegFile) (hf : f = s.regs ∨ (i = .enc ∨ i = .dec) ∧ ∃ v, f = regSet s.regs .dout v) :
      Accepted i s { s with status := doneStatus, seq := .idle, regs := f }
  | rangeError (hp : s.params.checkRange = true) : Accepted i s { s with status := rangeErrorStatus, seq := .idle }
  | started (op : SeqOp) (l : Latch) (hl : latchAgrees op l s.regs)
      (hr : s.params.checkRange = true → operandsInRange op s.regs = true) :
      Accepted i s { s with status := busyStatus, seq := .run op 0, latch := l, rbuf := .zero, rcnt := 0 }

/-- A sequenced command either fails its range check or is started. -/
theorem accepted_checked (i : Instr) {s : State} {op : SeqOp} {l : Latch} (hl : latchAgrees op l s.regs) :
    Accepted i s (if s.params.checkRange && !operandsInRange op s.regs then { s with status := rangeErrorStatus, seq := .idle }
      else { s with status := busyStatus, seq := .run op 0, latch := l, rbuf := .zero, rcnt := 0 }) := by
  split
  · next h => exact .rangeError (Bool.and_eq_true_iff.1 h).1
  · next h => exact .started op l hl (not_rangeError_iff.1 h)

/-- R96: every command accepted while no command runs answers one of these states. -/
theorem exec_accepted (i : Instr) {s : State} (hb : s.status.busy = false) : ∃ t, exec i s = .next t ∧ Accepted i s t := by
  cases i with
  | nop => exact ⟨_, execNop_idle hb, .completed s.regs (.inl rfl)⟩
  | enc =>
    refine ⟨_, execEnc_idle hb, ?_⟩
    split
    · exact .completed _ (.inr ⟨.inl rfl, _, rfl⟩)
    · split
      · next hp => exact .rangeError hp
      · exact .completed _ (.inr ⟨.inl rfl, _, rfl⟩)
  | dec => exact ⟨_, execDec_idle hb, .completed _ (.inr ⟨.inr rfl, _, rfl⟩)⟩
  | rtcw => exact ⟨_, execRtcw_idle hb, accepted_checked (op := .rtcw) _ rfl⟩
  | rtcr => exact ⟨_, execRtcr_idle hb, .started .rtcr _ trivial fun _ => rfl⟩
  | eew => exact ⟨_, execEew_idle hb, accepted_checked (op := .eew) _ ⟨rfl, rfl⟩⟩
  | eer => exact ⟨_, execEer_idle hb, accepted_checked (op := .eer) _ rfl⟩

/-- Settles O9: a command is dropped while BUSY, and otherwise ends in one of the ways of an accepted one. -/
theorem everyCommandAnswersANextState : Obligations.EveryCommandAnswersANextState := by
  intro i s
  cases hb : s.status.busy with
  | true => exact ⟨_, exec_busy i hb⟩
  | false =>
    obtain ⟨t, ht, -⟩ := exec_accepted i hb
    exact ⟨t, ht⟩

/-- R93 to R97: the state a host access leaves. -/
inductive HostEffect (a : HostAccess) (s : State) : State → Prop
  | read (o : Offset) (ha : a = .read o) : HostEffect a s { s with reads := s.reads ++ [⟨o, hostRead s o⟩] }
  | ignored : HostEffect a s s
  | dropped (hb : s.status.busy = true)
      (ha : (∃ c, a = .write 0x0 c) ∨ ∃ r v, a = .write (regOffset r) v ∧ hostWritable r = true) :
      HostEffect a s (dropWrite s)
  | stored (hb : s.status.busy = false) (r : Reg) (v : Byte) (ha : a = .write (regOffset r) v)
      (hr : hostWritable r = true) : HostEffect a s { s with regs := regSet s.regs r v }
  | command (hb : s.status.busy = false) (c : Byte) (i : Instr) (t : State) (ha : a = .write 0x0 c)
      (hc : decode c = .ok i) (ht : Accepted i s t) : HostEffect a s t
  | illegal (hb : s.status.busy = false) (c : Byte) (ha : a = .write 0x0 c) :
      HostEffect a s { s with status := illegalStatus, seq := .idle }

/-- R93 to R97: every host access answers one of these states. -/
theorem exists_hostEffect (a : HostAccess) (s : State) : ∃ t, hostAccess a s = .next t ∧ HostEffect a s t := by
  obtain ⟨o, ha, h⟩ | ⟨c, i, ha, hc, h⟩ | ⟨c, ha, -, h⟩ | ⟨r, v, ha, h⟩ | ⟨-, -, -, -, h⟩ := hostAccess_cases a s
  · exact ⟨_, h, .read o ha⟩
  · cases hb : s.status.busy with
    | true => exact ⟨_, h.trans (exec_busy i hb), .dropped hb (.inl ⟨c, ha⟩)⟩
    | false =>
      obtain ⟨t, ht, hacc⟩ := exec_accepted i hb
      exact ⟨t, h.trans ht, .command hb c i t ha hc hacc⟩
  · cases hb : s.status.busy with
    | true => exact ⟨_, h.trans (accept_busy _ hb), .dropped hb (.inl ⟨c, ha⟩)⟩
    | false => exact ⟨_, h.trans (illegalCommand_idle hb), .illegal hb c ha⟩
  · obtain ⟨hr, hb, hw⟩ | ⟨hr, hb, hw⟩ | ⟨-, hw⟩ := hostWriteReg_cases r v s <;> rw [hw] at h
    · exact ⟨_, h, .dropped hb (.inr ⟨r, v, ha, hr⟩)⟩
    · exact ⟨_, h, .stored hb r v ha hr⟩
    · exact ⟨_, h, .ignored⟩
  · exact ⟨_, h, .ignored⟩

theorem hostEffect_of_next {a : HostAccess} {s t : State} (h : hostAccess a s = .next t) : HostEffect a s t := by
  obtain ⟨u, hu, heff⟩ := exists_hostEffect a s
  cases h.symm.trans hu
  exact heff

end Sys2Proof.Machine
end

section
/-! The sequencer's step (43_command_control.md R99), said once as a list of cases. -/

namespace Sys2Proof.Machine

/-- R13, R83: the state once a call is made and the byte it brings, if any, is in RBUF. -/
def called (c : BusCall) (s : State) : State := received (busCall c s).1 (busCall c s).2

section
variable (c : BusCall) (s : State)

@[simp] theorem called_params : (called c s).params = s.params := by unfold called received; split <;> rfl
@[simp] theorem called_status : (called c s).status = s.status := by unfold called received; split <;> rfl
@[simp] theorem called_regs : (called c s).regs = s.regs := by unfold called received; split <;> rfl
@[simp] theorem called_latch : (called c s).latch = s.latch := by unfold called received; split <;> rfl
@[simp] theorem called_trace : (called c s).trace = s.trace ++ [(envCall s.draws s.env c).1] := by
  unfold called received; split <;> rfl
@[simp] theorem called_env : (called c s).env = (envCall s.draws s.env c).2 := by unfold called received; split <;> rfl

end

/-- A call that brings no byte leaves RBUF as it was. -/
theorem called_of_noByte {c : BusCall} {s : State} (h : byteRead (busCall c s).1 = none) : called c s = (busCall c s).2 := by
  rw [called, received, h]

/-- R83: a byte read is stored in RBUF and counted. -/
theorem called_of_byte {c : BusCall} {s : State} {b : Byte} (h : byteRead (busCall c s).1 = some b) :
    called c s = storeByte b (busCall c s).2 := by
  rw [called, received, h]

/-- R99: the state a sequencer step leaves that makes call `k` of `op`, the call `c`: ended with NODATA, completed, or running
with the next call to make. -/
inductive SeqEffect (op : SeqOp) (k : Nat) (c : BusCall) (s : State) : State → Prop
  | noData (hc : c = .avail) (hev : (envCall s.draws s.env c).1 = .avail false) :
      SeqEffect op k c s (raiseError .noData (called c s))
  | completed (hev : (envCall s.draws s.env c).1 ≠ .avail false) (hlast : k + 1 = (frame s.params op s.latch).length) :
      SeqEffect op k c s (complete (results op (called c s).rbuf) (called c s))
  | goesOn (hev : (envCall s.draws s.env c).1 ≠ .avail false) (hmore : k + 1 ≠ (frame s.params op s.latch).length) :
      SeqEffect op k c s { called c s with seq := .run op (k + 1) }

/-- R99: what follows a call is one of these. -/
theorem seqEffect_afterCall (op : SeqOp) (k : Nat) (c : BusCall) (s : State) :
    SeqEffect op k c s (afterCall op k (busCall c s).1 (busCall c s).2) := by
  have hcall : eventOf c (busCall c s).1 := eventOf_envCall s.draws s.env c
  by_cases hev : (busCall c s).1 = .avail false
  · have hc : c = .avail := by
      by_contra hc
      exact ne_availFalse_of_eventOf hc hcall hev
    have hnone : afterCall op k (busCall c s).1 (busCall c s).2 = raiseError .noData (called c s) := by
      rw [called_of_noByte (by rw [hev]; rfl), hev]
      rfl
    rw [hnone]
    exact .noData hc hev
  · rw [afterCall_eq_advance _ _ _ hev]
    change SeqEffect op k c s (advance op k (called c s))
    have hframe : frame (called c s).params op (called c s).latch = frame s.params op s.latch := by
      rw [called_params, called_latch]
    rw [advance, hframe]
    split
    · next hlast => exact .completed hev hlast
    · next hmore => exact .goesOn hev hmore

/-- R99: a step of a running command makes the next call of its frame. -/
theorem seqEffect_of_next {s t : State} {op : SeqOp} {k : Nat} (hq : s.seq = .run op k) (h : seqStep s = .next t) :
    ∃ c, (frame s.params op s.latch)[k]? = some c ∧ SeqEffect op k c s t := by
  obtain ⟨c, hc, rfl⟩ := seqStep_next hq h
  exact ⟨c, hc, seqEffect_afterCall op k c s⟩

/-- R99: with a call to make, a step of a running command answers a state. -/
theorem exists_seqEffect {s : State} {op : SeqOp} {k : Nat} {c : BusCall} (hq : s.seq = .run op k)
    (hc : (frame s.params op s.latch)[k]? = some c) : ∃ t, seqStep s = .next t ∧ SeqEffect op k c s t :=
  ⟨_, by rw [seqStep_run hq, hc], seqEffect_afterCall op k c s⟩

theorem seq_idle_or_run (s : State) : s.seq = .idle ∨ ∃ op k, s.seq = .run op k := by
  cases s.seq <;> simp

end Sys2Proof.Machine
end

section
/-! The events of a frame (30_encoding.md R63 to R68): which calls read a byte, and how the trace grows by one call. -/

namespace Sys2Proof.Machine

/-- With a byte for each of its reads, a list of calls makes its events and leaves the other bytes for the calls after it. -/
theorem callEvents_append {cs : List BusCall} (ds : List BusCall) {bs : List Byte} (as : List Byte)
    (h : cs.count .read = bs.length) : callEvents (cs ++ ds) (bs ++ as) = callEvents cs bs ++ callEvents ds as := by
  induction cs generalizing bs with
  | nil =>
    obtain rfl : bs = [] := List.length_eq_zero_iff.1 h.symm
    rfl
  | cons c cs ih =>
    cases c with
    | read =>
      cases bs with
      | nil => simp at h
      | cons b bs => exact congrArg _ (ih (by simpa using h))
    | beginTxn _ | write _ | endTxn | request _ _ | avail | settle => exact congrArg _ (ih (by simpa using h))

theorem length_callEvents {cs : List BusCall} {bs : List Byte} (h : cs.count .read = bs.length) :
    (callEvents cs bs).length = cs.length := by
  induction cs generalizing bs with
  | nil => rfl
  | cons c cs ih =>
    cases c with
    | read =>
      cases bs with
      | nil => simp at h
      | cons b bs => exact congrArg Nat.succ (ih (by simpa using h))
    | beginTxn _ | write _ | endTxn | request _ _ | avail | settle => exact congrArg Nat.succ (ih (by simpa using h))

/-- The first `k` events are those of the first `k` calls, with as many bytes as these read. -/
theorem take_callEvents {cs : List BusCall} {k n : Nat} {bs : List Byte} (hk : k ≤ cs.length)
    (hn : (cs.take k).count .read = n) (hbs : n ≤ bs.length) :
    (callEvents cs bs).take k = callEvents (cs.take k) (bs.take n) := by
  have hcount : (cs.take k).count .read = (bs.take n).length := by rw [hn, List.length_take_of_le hbs]
  have hsplit := callEvents_append (cs.drop k) (bs.drop n) hcount
  rw [List.take_append_drop, List.take_append_drop] at hsplit
  have hlen : k = (callEvents (cs.take k) (bs.take n)).length := by
    rw [length_callEvents hcount, List.length_take_of_le hk]
  rw [hsplit, List.take_left' hlen.symm]

/-- R13: a call that is not answered "no byte" makes its event with the byte it reads, if any. -/
theorem callEvents_singleton {c : BusCall} {ev : BusEvent} (h : eventOf c ev) (hne : ev ≠ .avail false) :
    callEvents [c] (byteRead ev).toList = [ev] := by
  cases c with
  | avail =>
    obtain ⟨r, rfl⟩ := h
    cases r with
    | false => exact absurd rfl hne
    | true => rfl
  | read =>
    obtain ⟨b, rfl⟩ := h
    rfl
  | beginTxn _ | write _ | endTxn | request _ _ | settle =>
    obtain rfl := h
    rfl

/-- R13: the read is the one call that brings a byte. -/
theorem count_read_singleton {c : BusCall} {ev : BusEvent} (h : eventOf c ev) :
    [c].count .read = (byteRead ev).toList.length := by
  cases c with
  | avail | read =>
    obtain ⟨_, rfl⟩ := h
    rfl
  | beginTxn _ | write _ | endTxn | request _ _ | settle =>
    obtain rfl := h
    rfl

/-- R64, R68: `readsBefore` counts the reads of a frame. -/
theorem count_read_frame (p : Params) {op : SeqOp} (l : Latch) {k : Nat} (hk : k < (frame p op l).length) :
    ((frame p op l).take k).count .read = readsBefore op k := by
  rw [frame_length] at hk
  cases op with
  | rtcr =>
    have hrounds : ∀ k < 18, (rtcrFrame.take k).count .read = (k - 4) / 2 := by decide
    exact hrounds k hk
  | rtcw | eew | eer => interval_cases k <;> rfl

/-- R32, R64: RBUF has room for every byte a command reads. -/
theorem readsBefore_lt {p : Params} {op : SeqOp} {l : Latch} {k : Nat} (hk : k < (frame p op l).length) :
    readsBefore op k < 7 := by
  rw [frame_length] at hk
  cases op with
  | rtcr =>
    have hk' : k < 18 := hk
    change (k - 4) / 2 < 7
    omega
  | rtcw | eew | eer => exact (by decide : 0 < 7)

/-- R54: the frames address the two devices alone. -/
theorem addressesKnownDevice_of_mem_frame {p : Params} {op : SeqOp} {l : Latch} {c : BusCall} {ev : BusEvent}
    (hc : c ∈ frame p op l) (h : eventOf c ev) : addressesKnownDevice ev := by
  cases c with
  | beginTxn id | request id n =>
    obtain rfl := h
    cases op <;> simp_all [frame, rtcwFrame_eq, rtcrFrame, eewFrame, eerFrame, addressesKnownDevice]
  | avail | read =>
    obtain ⟨_, rfl⟩ := h
    trivial
  | write _ | endTxn | settle =>
    obtain rfl := h
    trivial

end Sys2Proof.Machine
end

section
/-! The invariant (10_state.md, 43_command_control.md R98): each agent's step keeps it, and the machine never stops. -/

namespace Sys2Proof.Machine

/-! ### STATUS -/

/-- R18 to R20: of the bytes a run can show, those with BUSY set have no other bit but ERR_BUSY. -/
theorem status_of_legal_busy {st : Status} (h : statusByte st ∈ legalStatusBytes) (hb : st.busy = true) :
    st = { busyStatus with errBusy := st.errBusy } := by
  obtain ⟨busy, done, errRange, noData, errIll, errBusy⟩ := st
  revert busy done errRange noData errIll errBusy
  decide

theorem busyStatus_legal (eb : Bool) : statusByte { busyStatus with errBusy := eb } ∈ legalStatusBytes := by
  revert eb
  decide

theorem doneStatus_legal (eb : Bool) : statusByte { doneStatus with errBusy := eb } ∈ legalStatusBytes := by
  revert eb
  decide

theorem noDataStatus_legal (eb : Bool) : statusByte { noDataStatus with errBusy := eb } ∈ legalStatusBytes := by
  revert eb
  decide

/-- R20, R109: of the bytes a run can show, none has two of the three errors. -/
theorem errors_exclusive_of_legal {st : Status} (h : statusByte st ∈ legalStatusBytes) :
    ¬(st.errRange = true ∧ st.noData = true) ∧ ¬(st.errRange = true ∧ st.errIll = true) ∧
      ¬(st.noData = true ∧ st.errIll = true) := by
  obtain ⟨busy, done, errRange, noData, errIll, errBusy⟩ := st
  revert busy done errRange noData errIll errBusy
  decide

section
variable {s : State} (h : Inv s)
include h

theorem Inv.busy_of_run {op : SeqOp} {k : Nat} (hq : s.seq = .run op k) : s.status.busy = true :=
  h.busyIffRunning.2 (by rw [hq]; nofun)

theorem Inv.idle_of_notBusy (hb : s.status.busy = false) : s.seq = .idle := by
  by_contra hq
  exact absurd ((h.busyIffRunning.2 hq).symm.trans hb) (by decide)

/-- R18 to R20: while a command runs STATUS is BUSY, with or without ERR_BUSY. -/
theorem Inv.status_of_busy (hb : s.status.busy = true) : s.status = { busyStatus with errBusy := s.status.errBusy } :=
  status_of_legal_busy h.statusLegal hb

end

/-- Settles O59: each clause is read off the nine STATUS bytes, and the last is the invariant's own. -/
theorem errorBitsExcludeEachOther : Obligations.ErrorBitsExcludeEachOther := by
  intro s h
  obtain ⟨hRangeNoData, hRangeIll, hNoDataIll⟩ := errors_exclusive_of_legal h.statusLegal
  refine ⟨?_, hRangeNoData, hRangeIll, hNoDataIll, h.rangeNeedsCheck, fun hb => ?_, h.busyIffRunning⟩
  · rintro ⟨hb, hdone⟩
    rw [h.status_of_busy hb] at hdone
    cases hdone
  · rw [h.status_of_busy hb]
    exact ⟨rfl, rfl, rfl⟩

/-! ### Idle states -/

/-- With SEQ idle the invariant is about STATUS, the devices and the trace. -/
theorem inv_of_idle {s : State} (hq : s.seq = .idle) (hb : s.status.busy = false)
    (hl : statusByte s.status ∈ legalStatusBytes) (hr : s.status.errRange = true → s.params.checkRange = true)
    (hd : DevicesWf s.env.ref) (ht : ∀ ev ∈ s.trace, addressesKnownDevice ev) : Inv s where
  busyIffRunning := by simp [hb, hq]
  statusLegal := hl
  rangeNeedsCheck := hr
  running op k hrun := by cases hq.symm.trans hrun
  devices := hd
  traceIds := ht

/-- Settles O56: after reset SEQ is idle, STATUS is 0x00, the trace is empty and the devices are cold. -/
theorem invariantHoldsAtReset : Obligations.InvariantHoldsAtReset :=
  inv_of_idle rfl rfl (by decide) nofun devicesWf_reset nofun

/-- R36, R119: a reset idles the block and keeps the devices canonical. -/
theorem Inv.applyReset {s : State} (h : Inv s) : Inv (applyReset s) :=
  inv_of_idle rfl rfl (by decide : statusByte .zero ∈ legalStatusBytes) nofun (devicesWf_envReset _ _ _ h.devices) nofun

/-! ### Host steps -/

/-- The host's program and record, the schedule and the draw counter are no part of the invariant. -/
theorem Inv.withHost {s : State} (h : Inv s) (p : List HostOp) (r : List HostRead) (sc : List Turn) (d : Nat) :
    Inv { s with program := p, reads := r, script := sc, draws := d } :=
  { h with running := fun op k hq => { h.running op k hq with } }

/-- R97: a dropped write keeps a running command's STATUS legal. -/
theorem Inv.dropWrite {s : State} (h : Inv s) (hb : s.status.busy = true) : Inv (dropWrite s) := by
  have hst : (Machine.dropWrite s).status = { busyStatus with errBusy := true } := by
    rw [dropWrite_status, h.status_of_busy hb]
    rfl
  exact
    { busyIffRunning := h.busyIffRunning
      statusLegal := hst ▸ busyStatus_legal true
      rangeNeedsCheck := h.rangeNeedsCheck
      running := fun op k hq => { h.running op k hq with }
      devices := h.devices
      traceIds := h.traceIds }

/-- R96: an accepted command latches operands that agree with the registers and have passed its check. -/
theorem Inv.accepted {i : Instr} {s t : State} (h : Inv s) (ht : Accepted i s t) : Inv t := by
  cases ht with
  | completed f _ => exact inv_of_idle rfl rfl (doneStatus_legal false) nofun h.devices h.traceIds
  | rangeError hp =>
    exact inv_of_idle rfl rfl (by decide : statusByte rangeErrorStatus ∈ legalStatusBytes) (fun _ => hp) h.devices h.traceIds
  | started op l hl hr =>
    refine ⟨by simp [busyStatus], busyStatus_legal false, nofun, ?_, h.devices, h.traceIds⟩
    intro op' k hq
    cases hq
    refine ⟨?_, ?_, hl, hr, s.trace, (List.append_nil _).symm⟩
    · rw [frame_length]
      cases op <;> decide
    · cases op <;> rfl

theorem Inv.hostEffect {a : HostAccess} {s t : State} (h : Inv s) (ht : HostEffect a s t) : Inv t := by
  cases ht with
  | read o _ => exact h.withHost s.program _ s.script s.draws
  | ignored => exact h
  | dropped hb _ => exact h.dropWrite hb
  | stored hb r v _ _ =>
    exact inv_of_idle (h.idle_of_notBusy hb) hb h.statusLegal h.rangeNeedsCheck h.devices h.traceIds
  | command _ c i t _ _ hacc => exact h.accepted hacc
  | illegal _ c _ =>
    exact inv_of_idle rfl rfl (by decide : statusByte illegalStatus ∈ legalStatusBytes) nofun h.devices h.traceIds

/-- R40: a host turn answers a state, and keeps the invariant. -/
theorem Inv.hostStep {s : State} (h : Inv s) : ∃ t, hostStep s = .next t ∧ Inv t := by
  obtain ⟨-, hs⟩ | ⟨a, rest, -, hs⟩ | ⟨rest, -, hs⟩ := hostStep_cases s
  · exact ⟨s, hs, h⟩
  · obtain ⟨t, ht, heff⟩ := exists_hostEffect a { s with program := rest }
    exact ⟨t, hs.trans ht, (h.withHost rest s.reads s.script s.draws).hostEffect heff⟩
  · exact ⟨_, hs, h.withHost _ _ s.script s.draws⟩

/-! ### Sequencer steps -/

theorem called_rcnt (c : BusCall) (s : State) :
    (called c s).rcnt = s.rcnt + (byteRead (envCall s.draws s.env c).1).toList.length := by
  rw [← busCall_event]
  cases hb : byteRead (busCall c s).1 with
  | none =>
    rw [called_of_noByte hb]
    rfl
  | some b =>
    rw [called_of_byte hb]
    rfl

/-- R83: the bytes of RBUF that have been read, after one more call. -/
theorem take_rbuf_called (c : BusCall) {s : State} (hs : s.rcnt < 7) :
    (listOfBytes7 (called c s).rbuf).take (called c s).rcnt =
      (listOfBytes7 s.rbuf).take s.rcnt ++ (byteRead (envCall s.draws s.env c).1).toList := by
  rw [← busCall_event]
  cases hb : byteRead (busCall c s).1 with
  | none =>
    rw [called_of_noByte hb]
    exact (List.append_nil _).symm
  | some b =>
    rw [called_of_byte hb]
    exact take_setByte7 _ b hs

section
variable {s : State} {op : SeqOp} {k : Nat} {c : BusCall}

/-- R32: RCNT counts the reads of the frame, the one just made included. -/
theorem RunInv.rcnt_called (h : RunInv s op k) (hc : (frame s.params op s.latch)[k]? = some c) :
    (called c s).rcnt = ((frame s.params op s.latch).take (k + 1)).count .read := by
  rw [called_rcnt, List.take_add_one, hc, List.count_append, count_read_frame _ _ h.inside, h.count, Option.toList_some,
    count_read_singleton (eventOf_envCall s.draws s.env c)]

/-- R32, R47: the trace ends with the frame so far, the call just made included, and the bytes read are in RBUF. -/
theorem RunInv.trace_called (h : RunInv s op k) (hc : (frame s.params op s.latch)[k]? = some c)
    (hev : (envCall s.draws s.env c).1 ≠ .avail false) :
    ∃ past, (called c s).trace =
      past ++ (callEvents (frame s.params op s.latch) (listOfBytes7 (called c s).rbuf)).take (k + 1) := by
  obtain ⟨past, hpast⟩ := h.traced
  refine ⟨past, ?_⟩
  have hrcnt : s.rcnt < 7 := h.count ▸ readsBefore_lt h.inside
  have hcount : ((frame s.params op s.latch).take k).count .read = s.rcnt := (count_read_frame _ _ h.inside).trans h.count.symm
  have hlen (t : Bytes7) : (listOfBytes7 t).length = 7 := rfl
  have hroom : (called c s).rcnt ≤ 7 := by
    rw [called_rcnt]
    have : (byteRead (envCall s.draws s.env c).1).toList.length ≤ 1 := Option.length_toList_le
    omega
  have hcall := eventOf_envCall s.draws s.env c
  rw [take_callEvents h.inside (h.rcnt_called hc).symm (by rw [hlen]; exact hroom), take_rbuf_called c hrcnt,
    List.take_add_one, hc, Option.toList_some,
    callEvents_append [c] _ (by rw [hcount, List.length_take_of_le (by rw [hlen]; omega)]),
    callEvents_singleton hcall hev, called_trace, hpast, take_callEvents h.inside.le hcount (by rw [hlen]; omega),
    List.append_assoc]

/-- R99: a command that goes on has made one more call of its frame. -/
theorem RunInv.goesOn (h : RunInv s op k) (hc : (frame s.params op s.latch)[k]? = some c)
    (hev : (envCall s.draws s.env c).1 ≠ .avail false) (hmore : k + 1 ≠ (frame s.params op s.latch).length) :
    RunInv { called c s with seq := .run op (k + 1) } op (k + 1) := by
  have hinside : k + 1 < (frame s.params op s.latch).length := by
    have := h.inside
    omega
  have hcount := (h.rcnt_called hc).trans (count_read_frame _ _ hinside)
  have htrace := h.trace_called hc hev
  rw [← called_params c s, ← called_latch c s] at hinside htrace
  have hlatched := h.latched
  have hchecked := h.checked
  rw [← called_regs c s, ← called_latch c s] at hlatched
  rw [← called_regs c s, ← called_params c s] at hchecked
  exact ⟨hinside, hcount, hlatched, hchecked, htrace⟩

theorem Inv.seqEffect {t : State} (h : Inv s) (hq : s.seq = .run op k) (hc : (frame s.params op s.latch)[k]? = some c)
    (ht : SeqEffect op k c s t) : Inv t := by
  have hst : (called c s).status = { busyStatus with errBusy := s.status.errBusy } := by
    rw [called_status, ← h.status_of_busy (h.busy_of_run hq)]
  have hd : DevicesWf (called c s).env.ref := by
    rw [called_env]
    exact devicesWf_envCall _ c h.devices
  have hids : ∀ ev ∈ (called c s).trace, addressesKnownDevice ev := by
    rw [called_trace]
    intro ev hev
    obtain hev | hev := List.mem_append.1 hev
    · exact h.traceIds ev hev
    · rw [List.mem_singleton.1 hev]
      exact addressesKnownDevice_of_mem_frame (List.mem_of_getElem? hc) (eventOf_envCall s.draws s.env c)
  cases ht with
  | noData _ _ =>
    have hend : (raiseError .noData (called c s)).status = { noDataStatus with errBusy := s.status.errBusy } := by
      rw [raiseError_status, hst]
      rfl
    exact inv_of_idle rfl rfl (hend ▸ noDataStatus_legal _) (by rw [hend]; nofun) hd hids
  | completed _ _ =>
    have hend : (complete (results op (called c s).rbuf) (called c s)).status =
        { doneStatus with errBusy := s.status.errBusy } := by
      rw [complete_status, hst]
      rfl
    exact inv_of_idle rfl rfl (hend ▸ doneStatus_legal _) (by rw [hend]; nofun) hd hids
  | goesOn hev hmore =>
    refine ⟨?_, ?_, ?_, ?_, hd, hids⟩
    · simp [h.busy_of_run hq]
    · exact hst ▸ busyStatus_legal _
    · change (called c s).status.errRange = true → _
      rw [hst]
      nofun
    · intro op' k' hrun
      cases hrun
      exact (h.running op k hq).goesOn hc hev hmore

end

/-- R99: a sequencer turn answers a state, and keeps the invariant. -/
theorem Inv.seqStep {s : State} (h : Inv s) : ∃ t, seqStep s = .next t ∧ Inv t := by
  obtain hq | ⟨op, k, hq⟩ := seq_idle_or_run s
  · exact ⟨s, seqStep_idle hq, h⟩
  · have hc := List.getElem?_eq_getElem (h.running op k hq).inside
    obtain ⟨t, ht, heff⟩ := exists_seqEffect hq hc
    exact ⟨t, ht, h.seqEffect hq hc heff⟩

/-! ### Steps of the machine -/

theorem Inv.takeTurn {s : State} (h : Inv s) (t : Turn) : ∃ s', takeTurn t s = .next s' ∧ Inv s' := by
  cases t with
  | host => exact h.hostStep
  | sequencer => exact h.seqStep
  | reset => exact ⟨_, rfl, h.applyReset⟩

theorem Inv.step {s : State} (h : Inv s) : ∃ t, step s = .next t ∧ Inv t := by
  obtain ⟨sc, d, hturn⟩ := nextTurn_state s
  have hinv : Inv (nextTurn s).2 := by
    rw [hturn]
    exact h.withHost s.program s.reads sc d
  exact hinv.takeTurn _

/-- Settles O57: each agent's step keeps the invariant, and the choice of the agent changes nothing it speaks of. -/
theorem everyStepKeepsTheInvariant : Obligations.EveryStepKeepsTheInvariant := by
  intro s t h ht
  obtain ⟨u, hu, hinv⟩ := h.step
  cases ht.symm.trans hu
  exact hinv

/-- Settles O58: the index of a running command is inside its frame, and every other turn answers a state. -/
theorem machineNeverStops : Obligations.MachineNeverStops := by
  intro s h
  obtain ⟨t, ht, -⟩ := h.step
  exact ⟨t, ht⟩

end Sys2Proof.Machine
end

section
/-! Host accesses (43_command_control.md R96 to R98, 60_exceptions.md R111): what they leave alone. -/

namespace Sys2Proof.Machine

/-! ### Acceptance -/

/-- R96: of the data registers an accepted command changes none but DOUT, and that only if it is ENC or DEC. -/
theorem Accepted.regs {i : Instr} {s t : State} (h : Accepted i s t) :
    t.regs = s.regs ∨ (i = .enc ∨ i = .dec) ∧ ∃ v, t.regs = regSet s.regs .dout v := by
  cases h with
  | completed _ hf => exact hf
  | rangeError _ | started _ _ _ _ => exact .inl rfl

/-- R96: a command byte is dropped while BUSY, and otherwise its command is accepted. -/
theorem accepted_or_dropped_of_exec {i : Instr} {s t : State} (h : exec i s = .next t) : Accepted i s t ∨ t = dropWrite s := by
  cases hb : s.status.busy with
  | true =>
    cases h.symm.trans (exec_busy i hb)
    exact .inr rfl
  | false =>
    obtain ⟨u, hu, hacc⟩ := exec_accepted i hb
    cases h.symm.trans hu
    exact .inl hacc

/-- Settles O42: an accepted command changes STATUS, SEQ, the latch, RBUF, RCNT and DOUT, and a dropped one ERR_BUSY. -/
theorem acceptanceMakesNoBusCall : Obligations.AcceptanceMakesNoBusCall := by
  intro i s t h
  have hregs : t.regs = s.regs ∨ (i = .enc ∨ i = .dec) ∧ ∃ v, t.regs = regSet s.regs .dout v := by
    obtain hacc | rfl := accepted_or_dropped_of_exec h
    · exact hacc.regs
    · exact .inl rfl
  have hothers : ∀ r : Reg, r ≠ .dout → regGet t.regs r = regGet s.regs r := by
    intro r hr
    obtain hsame | ⟨-, v, hset⟩ := hregs
    · rw [hsame]
    · rw [hset, regGet_regSet_other _ v hr]
  have hall : i ≠ .enc → i ≠ .dec → t.regs = s.regs := fun he hd =>
    hregs.resolve_right fun hcodec => hcodec.1.elim he hd
  obtain (_ | _ | _) | rfl := accepted_or_dropped_of_exec h <;>
    exact ⟨rfl, rfl, rfl, rfl, rfl, rfl, rfl, rfl, rfl, fun _ => rfl, fun _ => rfl, hothers, hall⟩

/-! ### Every access -/

section
variable {a : HostAccess} {s t : State} (h : HostEffect a s t)
include h

theorem HostEffect.params : t.params = s.params := by
  cases h with
  | command _ _ _ _ _ _ hacc => cases hacc <;> rfl
  | read _ _ | ignored | dropped _ _ | stored _ _ _ _ _ | illegal _ _ _ => rfl

theorem HostEffect.program : t.program = s.program := by
  cases h with
  | command _ _ _ _ _ _ hacc => cases hacc <;> rfl
  | read _ _ | ignored | dropped _ _ | stored _ _ _ _ _ | illegal _ _ _ => rfl

/-- R46: no host access makes a bus call. -/
theorem HostEffect.trace_env : t.trace = s.trace ∧ t.env = s.env := by
  cases h with
  | command _ _ _ _ _ _ hacc => cases hacc <;> exact ⟨rfl, rfl⟩
  | read _ _ | ignored | dropped _ _ | stored _ _ _ _ _ | illegal _ _ _ => exact ⟨rfl, rfl⟩

/-- R97: while BUSY an access records a read, sets ERR_BUSY, or does nothing. -/
theorem HostEffect.of_busy (hb : s.status.busy = true) :
    t = { s with status := { s.status with errBusy := t.status.errBusy }, reads := t.reads } ∧
      (s.status.errBusy = true → t.status.errBusy = true) := by
  cases h with
  | read _ _ | ignored => exact ⟨rfl, id⟩
  | dropped _ _ => exact ⟨rfl, fun _ => rfl⟩
  | stored hidle _ _ _ _ | command hidle _ _ _ _ _ _ | illegal hidle _ _ => exact absurd (hb.symm.trans hidle) (by decide)

end

/-- Settles O48: the writes that take effect need BUSY = 0. -/
theorem hostCannotDisturbARunningCommand : Obligations.HostCannotDisturbARunningCommand :=
  fun _ _ _ hb h => (hostEffect_of_next h).of_busy hb

/-- Settles O49: each access keeps BUSY and all that the sequencer works on, so a list of accesses does. -/
theorem hostAccessesNeverEndARunningCommand : Obligations.HostAccessesNeverEndARunningCommand := by
  intro as
  induction as with
  | nil => exact fun s hb => ⟨s, rfl, hb, rfl, rfl, rfl, rfl, rfl⟩
  | cons a as ih =>
    intro s hb
    obtain ⟨t, ht, heff⟩ := exists_hostEffect a s
    have hframe := (heff.of_busy hb).1
    have hbt : t.status.busy = true := by rw [hframe]; exact hb
    obtain ⟨u, hu, hbu, hseq, hregs, htrace, henv, hlatch⟩ := ih t hbt
    refine ⟨u, by simp only [hostAccesses, ht, hu], hbu, hseq.trans ?_, hregs.trans ?_, htrace.trans ?_, henv.trans ?_,
      hlatch.trans ?_⟩ <;> rw [hframe]

/-- R97, R123: an access that is dropped breaks a duty: it writes CMD or an RW register while BUSY. -/
theorem not_safeAccess_of_dropped {a : HostAccess} {s : State} (hb : s.status.busy = true)
    (ha : (∃ c, a = .write 0x0 c) ∨ ∃ r v, a = .write (regOffset r) v ∧ hostWritable r = true) : safeAccess a s = false := by
  obtain ⟨c, rfl⟩ | ⟨r, v, rfl, hr⟩ := ha
  · change (!s.status.busy && _) = false
    rw [hb]
    rfl
  · simp [safeAccess, hr, hb]

theorem Accepted.errBusy {i : Instr} {s t : State} (h : Accepted i s t) : t.status.errBusy = false := by
  cases h <;> rfl

/-- Settles O16: only a dropped write sets ERR_BUSY, and it breaks a duty. -/
theorem safeAccessIsNeverDropped : Obligations.SafeAccessIsNeverDropped := by
  intro a s t hsafe h hbusy
  cases hostEffect_of_next h with
  | read _ _ | ignored | stored _ _ _ _ _ => exact hbusy
  | dropped hb ha => exact absurd (hsafe.symm.trans (not_safeAccess_of_dropped hb ha)) (by decide)
  | command _ _ _ _ _ _ hacc => exact absurd (hbusy.symm.trans hacc.errBusy) (by decide)
  | illegal _ _ _ => cases hbusy

end Sys2Proof.Machine
end

section
/-! The sequencer's step (43_command_control.md R99, R100, 20_memory.md R46 to R48): its event, its results, its errors. -/

namespace Sys2Proof.Machine

/-- R56: the result registers of a sequenced command. -/
def resultRegs : SeqOp → List Reg
  | .rtcw | .eew => []
  | .rtcr => [.tSec, .tMin, .tHour, .tDow, .tDom, .tMon, .tYear]
  | .eer => [.eeData]

theorem fst_mem_resultRegs {op : SeqOp} {rbuf : Bytes7} {w : Reg × Byte} (h : w ∈ results op rbuf) : w.1 ∈ resultRegs op := by
  have hfst : (results op rbuf).map Prod.fst = resultRegs op := by cases op <;> rfl
  exact hfst ▸ List.mem_map_of_mem h

section
variable {s t : State} {op : SeqOp} {k : Nat} {c : BusCall} (h : SeqEffect op k c s t)
include h

theorem SeqEffect.params : t.params = s.params := by
  cases h <;> exact called_params c s

/-- R99: the event of the call is the only one added. -/
theorem SeqEffect.trace : t.trace = s.trace ++ [(envCall s.draws s.env c).1] := by
  cases h <;> exact called_trace c s

/-- R48: a register that is no result of the command is left alone. -/
theorem SeqEffect.regGet_other {q : Reg} (hq : q ∉ resultRegs op) : regGet t.regs q = regGet s.regs q := by
  cases h with
  | noData _ _ | goesOn _ _ => exact congrArg (regGet · q) (called_regs c s)
  | completed _ _ =>
    rw [complete_regs, called_regs]
    exact regGet_regSetAll_other _ q _ fun w hw hqw => hq (hqw ▸ fst_mem_resultRegs hw)

/-- R48, R100, R107: a step goes on and changes neither a register nor STATUS, or ends the command with DONE set and BUSY
clear. -/
theorem SeqEffect.goesOn_or_ends :
    (t.seq = .run op (k + 1) ∧ t.regs = s.regs ∧ t.status = s.status) ∨
      (t.seq = .idle ∧ t.status.done = true ∧ t.status.busy = false ∧ t.status.errBusy = s.status.errBusy) := by
  have herr : (called c s).status.errBusy = s.status.errBusy := by rw [called_status]
  cases h with
  | noData _ _ | completed _ _ => exact .inr ⟨rfl, rfl, rfl, herr⟩
  | goesOn _ _ => exact .inl ⟨rfl, called_regs c s, called_status c s⟩

end

/-- Settles O45: a host access has no bus call, and a step of a running command makes one. -/
theorem oneBusEventPerSequencerStep : Obligations.OneBusEventPerSequencerStep := by
  refine ⟨fun a s t h => (hostEffect_of_next h).trace_env, fun s t op k hq h => ?_, fun s t hq h => ?_, fun _ => rfl⟩
  · obtain ⟨c, -, heff⟩ := seqEffect_of_next hq h
    exact ⟨⟨_, heff.trace⟩, heff.goesOn_or_ends.imp (·.1) (·.1)⟩
  · cases h.symm.trans (seqStep_idle hq)
    rfl

/-- Settles O46: a completion writes the result registers alone, and no other step writes any. -/
theorem resultsCommitOnlyAtCompletion : Obligations.ResultsCommitOnlyAtCompletion := by
  intro s t op k hq h
  obtain ⟨c, -, heff⟩ := seqEffect_of_next hq h
  refine heff.goesOn_or_ends.imp id fun ⟨hidle, hdone, hbusy, herr⟩ => ⟨hidle, hdone, hbusy, herr, ?_, ?_, ?_⟩
  · rintro r (rfl | rfl) <;> exact heff.regGet_other (by simp [resultRegs])
  · rintro r rfl hr
    exact heff.regGet_other (by simpa [resultRegs] using hr)
  · have hnever : ∀ q ∈ [Reg.din, .dout, .eeAddrH, .eeAddrL], q ∉ resultRegs op := by cases op <;> decide
    refine ⟨heff.regGet_other (hnever _ ?_), heff.regGet_other (hnever _ ?_), heff.regGet_other (hnever _ ?_),
      heff.regGet_other (hnever _ ?_), ?_⟩
    · decide
    · decide
    · decide
    · decide
    · rintro rfl
      exact heff.regGet_other (by decide)

/-! ### The ends of RTCR and EER -/

/-- R109: a running command has shown no error, so NODATA after its step is that step's own. -/
theorem Inv.noData_false {s : State} (h : Inv s) (hq : s.seq ≠ .idle) : s.status.noData = false := by
  rw [h.status_of_busy (h.busyIffRunning.2 hq)]
  rfl

/-- Settles O29: the step that ends RTCR is told that no byte is available, or is the last read, after which RBUF holds the
seven bytes of the trace. -/
theorem rtcrCommitsAllFieldsOrNone : Obligations.RtcrCommitsAllFieldsOrNone := by
  intro s t k hinv hq h hidle
  obtain ⟨c, hc, heff⟩ := seqEffect_of_next hq h
  cases heff with
  | noData _ hev =>
    have htrace : (called c s).trace = s.trace ++ [.avail false] := by rw [called_trace, hev]
    exact .inl ⟨rfl, called_regs c s, htrace⟩
  | completed hev hlast =>
    obtain ⟨past, hpast⟩ := (hinv.running _ k hq).trace_called hc hev
    obtain rfl : k = 17 := Nat.succ.inj hlast
    have hevents : (callEvents (frame s.params .rtcr s.latch) (listOfBytes7 (called c s).rbuf)).take 18 =
      rtcrEvents (listOfBytes7 (called c s).rbuf) := rfl
    rw [hevents, append_rtcrEvents] at hpast
    have hnoData : (called c s).status.noData = false := by
      rw [called_status]
      exact hinv.noData_false (by rw [hq]; nofun)
    have hregs : regSetAll (called c s).regs (results .rtcr (called c s).rbuf) =
      regSetAll s.regs (timeWrites (unpack (called c s).rbuf)) := by rw [called_regs]; rfl
    exact .inr ⟨hnoData, rfl, past, _, hpast, hregs⟩
  | goesOn _ _ => cases hidle

/-- R124: no result is valid while a command runs. -/
theorem resultsValid_of_not_done (i : Instr) {st : Status} (h : st.done = false) : resultsValid i st = false := by
  cases i <;> simp [resultsValid, h]

/-- R92: the last step of EER puts the byte it reads in EEDATA. -/
theorem eer_last {s : State} {c : BusCall} (hrun : RunInv s .eer 6) (hc : (frame s.params .eer s.latch)[6]? = some c) :
    ∃ b, (envCall s.draws s.env c).1 = .rd b ∧
      regSetAll s.regs (results .eer (called c s).rbuf) = regSet s.regs .eeData b := by
  obtain rfl : .read = c := Option.some.inj hc
  obtain ⟨b, hb⟩ := eventOf_envCall s.draws s.env .read
  have hbyte : (called .read s).rbuf = setByte7 s.rbuf 0 b := by
    rw [called_of_byte (b := b) (by rw [busCall_event, hb]; rfl), storeByte_rbuf, busCall_rbuf, busCall_rcnt]
    exact congrArg (setByte7 s.rbuf · b) hrun.count
  exact ⟨b, hb, by rw [hbyte]; rfl⟩

/-- R124: after ENC, DOUT is valid exactly when the range check passed, and otherwise no register has changed. -/
theorem resultsValid_enc {s t : State} (hs : Ready s) (h : exec .enc s = .next t) :
    (resultsValid .enc t.status = true ↔ (s.params.checkRange = true → (regVal s.regs .din).toNat ≤ 99)) ∧
      (resultsValid .enc t.status = false → t.regs = s.regs) := by
  by_cases hv : (regVal s.regs .din).toNat ≤ 99
  · cases h.symm.trans (execEnc_inRange hs hv)
    exact ⟨⟨fun _ _ => hv, fun _ => rfl⟩, nofun⟩
  · have hover : 100 ≤ (regVal s.regs .din).toNat := by omega
    cases hp : s.params.checkRange with
    | true =>
      cases h.symm.trans (execEnc_rangeError hs hover hp)
      exact ⟨⟨nofun, fun hcheck => absurd (hcheck rfl) hv⟩, fun _ => rfl⟩
    | false =>
      cases h.symm.trans (execEnc_overflow hs hover hp)
      exact ⟨⟨fun _ => nofun, fun _ => rfl⟩, nofun⟩

/-- Settles O47: ENC's paths, DEC's one path, and of a sequencer step the three ways it can end. -/
theorem resultsAreValidOnlyAfterSuccess : Obligations.ResultsAreValidOnlyAfterSuccess := by
  refine ⟨fun s t => resultsValid_enc, fun s t hs h => ?_, fun s t op k i hinv hq h hgo => ?_,
    fun s t k hinv hq h hidle hbad => ?_, fun s t k hinv hq h hidle => ?_⟩
  · cases h.symm.trans (execDec_ready hs)
    rfl
  · obtain ⟨c, -, heff⟩ := seqEffect_of_next hq h
    obtain ⟨-, hregs, hst⟩ | ⟨hidle, -⟩ := heff.goesOn_or_ends
    · rw [hst, hinv.status_of_busy (hinv.busy_of_run hq)]
      exact ⟨resultsValid_of_not_done i rfl, hregs⟩
    · exact absurd hidle hgo
  · obtain ⟨-, hregs, -⟩ | ⟨hnoData, hdone, -⟩ := rtcrCommitsAllFieldsOrNone s t k hinv hq h hidle
    · exact hregs
    · simp [resultsValid, hnoData, hdone] at hbad
  · obtain ⟨c, hc, heff⟩ := seqEffect_of_next hq h
    have hst : (called c s).status = { busyStatus with errBusy := s.status.errBusy } := by
      rw [called_status, ← hinv.status_of_busy (hinv.busy_of_run hq)]
    cases heff with
    | noData _ hev =>
      have hinvalid : resultsValid .eer (raiseError .noData (called c s)).status = false := by
        rw [raiseError_status, hst]
        rfl
      have hnone : ¬∃ b, (raiseError .noData (called c s)).trace = s.trace ++ [.rd b] ∧
          (raiseError .noData (called c s)).regs = regSet s.regs .eeData b := by
        rintro ⟨b, htrace, -⟩
        simp [hev] at htrace
      exact ⟨by simp only [hinvalid, hnone, Bool.false_eq_true], fun _ => called_regs c s⟩
    | completed _ hlast =>
      obtain rfl : k = 6 := Nat.succ.inj hlast
      obtain ⟨b, hb, hregs⟩ := eer_last (hinv.running _ _ hq) hc
      have hvalid : resultsValid .eer (complete (results .eer (called c s).rbuf) (called c s)).status = true := by
        rw [complete_status, hst]
        rfl
      refine ⟨iff_of_true hvalid ⟨b, ?_, ?_⟩, fun hbad => absurd (hvalid.symm.trans hbad) (by decide)⟩
      · rw [complete_trace, called_trace, hb]
      · rw [complete_regs, called_regs, hregs]
    | goesOn _ _ => cases hidle

end Sys2Proof.Machine
end

section
/-! Errors (60_exceptions.md R106, R107, R109, R112): each is raised at one place and leaves the rest of the machine alone. -/

namespace Sys2Proof.Machine

/-- R52: a question is answered without touching a device. -/
theorem envCall_avail_ref (n : Nat) (e : BusEnv) : (envCall n e .avail).2.ref = e.ref := by
  unfold envCall freeCall
  cases e.kind with
  | free => cases e.avails <;> rfl
  | reference => rfl

/-- R106, R109: an accepted command that leaves an error has failed its range check, and touched STATUS alone. -/
theorem Accepted.precise {i : Instr} {s t : State} (hs : Ready s) (h : Accepted i s t)
    (herr : t.status.errRange = true ∨ t.status.errIll = true ∨ t.status.noData = true) :
    t = { s with status := t.status } ∧ t.status = rangeErrorStatus := by
  cases h with
  | rangeError _ => exact ⟨hs.withStatus_idle _, rfl⟩
  | completed _ _ | started _ _ _ _ => simp [doneStatus, busyStatus] at herr

/-- R102, R106, R109: so does every CMD write that leaves an error. -/
theorem hostAccess_write_cmd_precise {c : Byte} {s t : State} (hs : Ready s) (h : hostAccess (.write 0x0 c) s = .next t)
    (herr : t.status.errRange = true ∨ t.status.errIll = true ∨ t.status.noData = true) :
    t = { s with status := t.status } ∧ (t.status = rangeErrorStatus ∨ t.status = illegalStatus) := by
  cases hwf : commandByteWellFormed c with
  | true =>
    obtain ⟨i, hc⟩ := decode_of_wellFormed hwf
    obtain ⟨u, hu, hacc⟩ := exec_accepted i hs.notBusy
    cases h.symm.trans ((hostAccess_write_command hc s).trans hu)
    exact (hacc.precise hs herr).imp id .inl
  | false =>
    cases h.symm.trans (hostAccess_write_illegal (decode_of_not_wellFormed hwf) hs)
    exact ⟨rfl, .inr rfl⟩

/-- R107, R109: the step that reports NODATA, and all it changes. -/
theorem SeqEffect.noData_precise {op : SeqOp} {k : Nat} {c : BusCall} {s t : State} (h : SeqEffect op k c s t)
    (hbefore : s.status.noData = false) (hafter : t.status.noData = true) :
    t = { s with
      status := { s.status with busy := false, done := true, noData := true }
      seq := .idle
      trace := s.trace ++ [.avail false]
      env := t.env
      draws := s.draws + 1 } ∧ t.env.ref = s.env.ref := by
  have hno : (called c s).status.noData ≠ true := by simp [hbefore]
  cases h with
  | noData hc hev =>
    subst hc
    have hcalled : called .avail s = (busCall .avail s).2 := called_of_noByte (by rw [busCall_event, hev]; rfl)
    rw [hcalled, ← hev]
    exact ⟨rfl, envCall_avail_ref s.draws s.env⟩
  | completed _ _ | goesOn _ _ => exact absurd hafter hno

/-- Settles O60: the accepting write raises RangeError and IllegalCommand, and the sequencer's step raises NoData alone. -/
theorem errorsArePrecise : Obligations.ErrorsArePrecise := by
  refine ⟨fun c s t hs h herr => hostAccess_write_cmd_precise hs h herr, fun s t hinv hq h hnoData => ?_,
    fun s t _ h => ?_⟩
  · obtain hidle | ⟨op, k, hrun⟩ := seq_idle_or_run s
    · exact absurd hidle hq
    · obtain ⟨c, -, heff⟩ := seqEffect_of_next hrun h
      exact heff.noData_precise (hinv.noData_false hq) hnoData
  · obtain hidle | ⟨op, k, hrun⟩ := seq_idle_or_run s
    · cases h.symm.trans (seqStep_idle hidle)
      exact ⟨rfl, rfl, rfl⟩
    · obtain ⟨c, -, heff⟩ := seqEffect_of_next hrun h
      have hst := called_status c s
      rw [← hst]
      cases heff <;> exact ⟨rfl, rfl, rfl⟩

/-- Settles O44: BUSY is tested first, then the byte is decoded, and then the command checks its operands. -/
theorem checksAreMadeInOrder : Obligations.ChecksAreMadeInOrder := by
  refine ⟨fun c s hb => ?_, fun c s hs hwf => hostAccess_write_illegal (decode_of_not_wellFormed hwf) hs,
    fun s hs hp hr => ?_, fun s c hs hp hr hc => ?_⟩
  · exact writesWhileBusyAreDropped s c 0x0 hb (by decide) (by decide) (by decide) (by decide)
  · exact (hostAccess_write_command (by decide) s).trans (execRtcw_rangeError hs hp hr)
  · obtain rfl | rfl := hc
    · exact (hostAccess_write_command (by decide) s).trans (execEew_rangeError hs hp hr)
    · exact (hostAccess_write_command (by decide) s).trans (execEer_rangeError hs hp hr)

end Sys2Proof.Machine
end

section
/-! Whole-machine rules (20_memory.md R40, 43_command_control.md R99): what no step changes, and in which order steps commute. -/

namespace Sys2Proof.Machine

/-! ### The build parameters -/

theorem params_of_seqStep {s t : State} (h : seqStep s = .next t) : t.params = s.params := by
  obtain hq | ⟨op, k, hq⟩ := seq_idle_or_run s
  · cases h.symm.trans (seqStep_idle hq)
    rfl
  · obtain ⟨c, -, heff⟩ := seqEffect_of_next hq h
    exact heff.params

theorem params_of_hostStep {s t : State} (h : hostStep s = .next t) : t.params = s.params := by
  obtain ⟨-, hs⟩ | ⟨a, rest, -, hs⟩ | ⟨rest, -, hs⟩ := hostStep_cases s <;> rw [hs] at h
  · cases h
    rfl
  · exact (hostEffect_of_next h).params
  · cases h
    rfl

theorem params_of_takeTurn {r : Turn} {s t : State} (h : takeTurn r s = .next t) : t.params = s.params := by
  cases r with
  | host => exact params_of_hostStep h
  | sequencer => exact params_of_seqStep h
  | reset =>
    cases h
    rfl

/-- Settles O53: no agent's step changes the parameters, and neither does the choice of the agent. -/
theorem noStepChangesTheBuildParameters : Obligations.NoStepChangesTheBuildParameters := by
  intro s t h
  obtain ⟨sc, d, hturn⟩ := nextTurn_state s
  have hchoice : (nextTurn s).2.params = s.params := by rw [hturn]
  exact (params_of_takeTurn h).trans hchoice

/-! ### DOUT -/

/-- R26: of the sequenced commands none has DOUT as a result. -/
theorem dout_of_seqStep {s t : State} (h : seqStep s = .next t) : t.regs.dout = s.regs.dout := by
  obtain hq | ⟨op, k, hq⟩ := seq_idle_or_run s
  · cases h.symm.trans (seqStep_idle hq)
    rfl
  · obtain ⟨c, -, heff⟩ := seqEffect_of_next hq h
    exact heff.regGet_other (q := .dout) (by cases op <;> decide)

/-- R26: the accesses that change DOUT. -/
theorem HostEffect.of_dout_ne {a : HostAccess} {s t : State} (h : HostEffect a s t) (hne : t.regs.dout ≠ s.regs.dout) :
    s.status.busy = false ∧ ∃ c, a = .write 0x0 c ∧ (decode c = .ok .enc ∨ decode c = .ok .dec) := by
  cases h with
  | read _ _ | ignored | dropped _ _ | illegal _ _ _ => exact absurd rfl hne
  | stored hb r v _ hr =>
    have hdout : r ≠ .dout := (hostWritable_iff r).1 hr
    exact absurd (regGet_regSet_other s.regs v hdout.symm) hne
  | command hb c i t ha hc hacc =>
    obtain hsame | ⟨rfl | rfl, -⟩ := hacc.regs
    · exact absurd (congrArg RegFile.dout hsame) hne
    · exact ⟨hb, c, ha, .inl hc⟩
    · exact ⟨hb, c, ha, .inr hc⟩

/-- Settles O51: the sequencer writes no DOUT, and of the host's accesses only an accepted ENC or DEC does. -/
theorem onlyEncAndDecWriteDout : Obligations.OnlyEncAndDecWriteDout := by
  intro r s s' h hne
  cases r with
  | reset => exact .inl rfl
  | sequencer => exact absurd (dout_of_seqStep h) hne
  | host =>
    obtain ⟨-, hs⟩ | ⟨a, rest, hp, hs⟩ | ⟨rest, -, hs⟩ := hostStep_cases s <;> rw [takeTurn, hs] at h
    · cases h
      exact absurd rfl hne
    · obtain ⟨hb, c, rfl, hc⟩ := (hostEffect_of_next h).of_dout_ne hne
      exact .inr ⟨rfl, hb, c, rest, hp, hc⟩
    · cases h
      exact absurd rfl hne

/-! ### Commuting steps -/

/-- R97: while BUSY the effect of a write depends on its offset alone. -/
theorem hostAccess_write_busy (o : Offset) (v : Byte) {s : State} (hb : s.status.busy = true) :
    hostAccess (.write o v) s = .next (if o = 0x1 ∨ o = 0x3 ∨ o = 0xE ∨ o = 0xF then s else dropWrite s) := by
  split
  · next ho => exact writesToReadOnlyOffsetsAreIgnored s v o ho
  · next ho =>
    obtain ⟨h1, h3, hE, hF⟩ : o ≠ 0x1 ∧ o ≠ 0x3 ∧ o ≠ 0xE ∧ o ≠ 0xF := by simpa [not_or] using ho
    exact writesWhileBusyAreDropped s v o hb h1 h3 hE hF

/-- A state with another STATUS and another record of the host's reads. -/
def withStatusReads (st : Status) (rs : List HostRead) (s : State) : State := { s with status := st, reads := rs }

/-- R97: that is all a host access can change while BUSY. -/
theorem HostEffect.eq_withStatusReads {a : HostAccess} {s t : State} (h : HostEffect a s t) (hb : s.status.busy = true) :
    t = withStatusReads t.status t.reads s := by
  rw [(h.of_busy hb).1]
  rfl

/-- The sequencer's call depends neither on STATUS nor on the host's record. -/
theorem called_withStatusReads (c : BusCall) (st : Status) (rs : List HostRead) (s : State) :
    called c (withStatusReads st rs s) = withStatusReads st rs (called c s) := by
  cases hb : byteRead (busCall c s).1 with
  | none =>
    rw [called_of_noByte hb, called_of_noByte (s := withStatusReads st rs s) hb]
    rfl
  | some b =>
    rw [called_of_byte hb, called_of_byte (s := withStatusReads st rs s) hb]
    rfl

/-- R99: a step that does not end the command neither reads nor changes STATUS and the host's record, and writes no register. -/
theorem seqStep_goesOn {s v : State} (h : seqStep s = .next v) (hgo : v.seq ≠ .idle) :
    v.regs = s.regs ∧ ∀ st rs, seqStep (withStatusReads st rs s) = .next (withStatusReads st rs v) := by
  obtain hq | ⟨op, k, hq⟩ := seq_idle_or_run s
  · cases h.symm.trans (seqStep_idle hq)
    exact absurd hq hgo
  obtain ⟨c, hc, heff⟩ := seqEffect_of_next hq h
  cases heff with
  | noData _ _ | completed _ _ => exact absurd rfl hgo
  | goesOn hev hmore =>
    refine ⟨called_regs c s, fun st rs => ?_⟩
    obtain ⟨t, ht, heff⟩ := exists_seqEffect (s := withStatusReads st rs s) hq hc
    rw [ht]
    cases heff with
    | noData _ hev' => exact absurd hev' hev
    | completed _ hlast => exact absurd hlast hmore
    | goesOn _ _ =>
      rw [called_withStatusReads]
      rfl

/-- R93: a read looks at STATUS and the registers alone. -/
theorem hostRead_congr {s t : State} (hst : t.status = s.status) (hregs : t.regs = s.regs) (o : Offset) :
    hostRead t o = hostRead s o := by
  rw [hostRead, hostRead, hst, hregs]

/-- Settles O50: while BUSY a host access changes STATUS and the host's record alone, and a step that goes on neither reads
nor changes these. -/
theorem hostAndSequencerStepsCommute : Obligations.HostAndSequencerStepsCommute := by
  intro a s t u v _ hb ht hu hv hgo
  obtain ⟨hregs, hstep⟩ := seqStep_goesOn hv hgo
  have hkeep : v = withStatusReads s.status s.reads v := Host.Outcome.next.inj (hv.symm.trans (hstep s.status s.reads))
  have hst : v.status = s.status := by rw [hkeep]; rfl
  have hreads : v.reads = s.reads := by rw [hkeep]; rfl
  obtain rfl : withStatusReads t.status t.reads v = u := by
    rw [(hostEffect_of_next ht).eq_withStatusReads hb, hstep] at hu
    exact Host.Outcome.next.inj hu
  cases a with
  | read o =>
    cases ht
    have hread : hostAccess (.read o) v = .next { v with reads := v.reads ++ [⟨o, hostRead v o⟩] } := rfl
    rw [hread, hreads, hostRead_congr hst hregs]
    change _ = Host.Outcome.next { v with status := s.status, reads := _ }
    rw [← hst]
  | write o w =>
    rw [hostAccess_write_busy o w hb] at ht
    rw [hostAccess_write_busy o w (hst ▸ hb)]
    split at ht <;> cases ht
    · next ho => rw [if_pos ho, ← hkeep]
    · next ho =>
      rw [if_neg ho, dropWrite_status, dropWrite_reads, ← hst, ← hreads]
      rfl

end Sys2Proof.Machine
end

section
/-! RTCW under the eager schedule (43_command_control.md R99). -/

namespace Sys2Proof.Machine

/-- R99: the host's program and record and the schedule are no part of what the sequencer works on. -/
theorem host_of_seqStep {s t : State} (h : seqStep s = .next t) :
    t.program = s.program ∧ t.reads = s.reads ∧ t.script = s.script ∧ t.rule = s.rule := by
  obtain hq | ⟨op, k, hq⟩ := seq_idle_or_run s
  · cases h.symm.trans (seqStep_idle hq)
    exact ⟨rfl, rfl, rfl, rfl⟩
  · obtain ⟨c, -, heff⟩ := seqEffect_of_next hq h
    have hcalled : (called c s).program = s.program ∧ (called c s).reads = s.reads ∧ (called c s).script = s.script ∧
        (called c s).rule = s.rule := by
      unfold called received
      split <;> exact ⟨rfl, rfl, rfl, rfl⟩
    cases heff <;> exact hcalled

/-- Under the eager rule, a step of the machine while a command runs is a sequencer step. -/
theorem step_eager {s : State} (hscript : s.script = []) (hrule : s.rule = .eager) (hq : s.seq ≠ .idle) : step s = seqStep s := by
  obtain hidle | ⟨op, k, hrun⟩ := seq_idle_or_run s
  · exact absurd hidle hq
  · simp only [step, nextTurn, hscript, hrun, hrule, takeTurn]

/-- A run of the machine begins with its step. -/
theorem run_succ {M : Host.Core} (n : Nat) {s t : M.State} (h : M.step s = .next t) : M.run (n + 1) s = M.run n t := by
  rw [Host.Core.run, h]

/-- R99: with an empty script and the eager rule, steps of the machine are sequencer steps while a command runs. -/
theorem run_eq_seqSteps {n : Nat} {s t : State} (h : seqSteps n s = .next t) (hscript : s.script = []) (hrule : s.rule = .eager)
    (hrun : ∀ m < n, ∃ x, seqSteps m s = .next x ∧ x.seq ≠ .idle) : core.run n s = .next t := by
  induction n generalizing s with
  | zero => exact h
  | succ n ih =>
    obtain ⟨_, hx, hq⟩ := hrun 0 (Nat.succ_pos n)
    cases hx
    have hstep := step_eager hscript hrule hq
    cases hs : seqStep s with
    | next s1 =>
      obtain ⟨-, -, hscript1, hrule1⟩ := host_of_seqStep hs
      refine (run_succ (M := core) n (hstep.trans hs)).trans (ih ?_ (hscript1.trans hscript) (hrule1.trans hrule) fun m hm => ?_)
      · rwa [seqSteps_succ n hs] at h
      · obtain ⟨x, hx, hseq⟩ := hrun (m + 1) (Nat.succ_lt_succ hm)
        exact ⟨x, by rwa [seqSteps_succ m hs] at hx, hseq⟩
    | fault r => simp [seqSteps, hs] at h
    | refused r => simp [seqSteps, hs] at h

/-- Settles O52: the placed write starts RTCW, and the ten sequencer steps of its frame follow. -/
theorem elevenEagerStepsRunRtcw : Obligations.ElevenEagerStepsRunRtcw := by
  intro s hs hscript hrule hr
  obtain ⟨x, y, hx, hy, hsteps⟩ := rtcw_run s
  have hstart : core.step (s.withFetchWord 8 0x20) = .next (startedRtcw s) :=
    ((hostAccess_write_command (c := 0x20) (by decide) s).trans (execRtcw_started hs hr) :)
  refine ⟨complete [] y, ?_, hy.status_complete [], rfl, hy.regs, hy.program, ?_⟩
  · refine (run_succ 10 hstart).trans (run_eq_seqSteps hsteps hscript hrule fun m hm => ?_)
    obtain ⟨z, hz, -, hseq, -⟩ := hx.busyUntil m (Nat.le_of_lt_succ hm)
    exact ⟨z, hz, by rw [hseq]; nofun⟩
  · rw [complete_trace, hy.trace, List.length_append]
    rfl

end Sys2Proof.Machine
end

section
/-! Commands, ports and statements as bytes and words (30_encoding.md R55 to R60, 10_state.md R15). -/

namespace Sys2Proof

/-- Settles O2: the decoder reads the seven bytes of R56 back, and refuses every other one. -/
theorem commandEncodingIsOneToOne : Obligations.CommandEncodingIsOneToOne := by
  intro c i
  constructor
  · intro h
    cases hwf : commandByteWellFormed c with
    | false => cases (decode_of_not_wellFormed hwf).symm.trans h
    | true =>
      simp only [commandByteWellFormed, Bool.or_eq_true, beq_iff_eq] at hwf
      obtain (((((rfl | rfl) | rfl) | rfl) | rfl) | rfl) | rfl := hwf <;> cases h <;> rfl
  · rintro rfl
    cases i <;> rfl

/-- Settles O1: each byte is its command's encoding. -/
theorem commandBytesOfTheSevenCommands : Obligations.CommandBytesOfTheSevenCommands := by
  refine ⟨?_, ?_, ?_, ?_, ?_, ?_, ?_⟩ <;> exact (commandEncodingIsOneToOne _ _).2 rfl

@[simp] theorem portOf_portOffset (p : Port) : portOf (portOffset p) = p := by
  cases p with
  | data r => exact portOf_regOffset r
  | cmd | status | reservedE | reservedF => rfl

/-- Settles O6: every port has an offset, and the sixteen offsets have different ports. -/
theorem registerMapIsOneToOne : Obligations.RegisterMapIsOneToOne := by
  refine ⟨portOf_portOffset, ?_⟩
  decide

/-! ### Statements -/

/-- R59: the words of a list of accesses decode to it. -/
theorem decodeAccesses_map_encodeAccess (as : List HostAccess) : decodeAccesses (as.map encodeAccess) = .ok as := by
  induction as with
  | nil => rfl
  | cons a as ih => simp only [List.map_cons, decodeAccesses, (decodeAccess_eq_ok_iff _ a).2 rfl, ih]

/-- R60: the words of a `wait` that took `n` reads of STATUS. -/
theorem decodeAccesses_assemble_wait (n : Nat) : decodeAccesses (assemble n .wait) = .ok (List.replicate n (.read 0x1)) := by
  have hwords : assemble n .wait = (List.replicate n (.read 0x1)).map encodeAccess := List.map_replicate.symm
  rw [hwords, decodeAccesses_map_encodeAccess]

/-- R59, R60: the word of a write as the spec writes it. -/
theorem encodeAccess_write_eq_or (o : Offset) (v : Byte) :
    encodeAccess (.write o v) = 0x8000#16 ||| (o.setWidth 16 <<< 8) ||| v.setWidth 16 := by
  -- bit by bit: the three fields do not overlap
  refine BitVec.eq_of_getLsbD_eq fun i hi => ?_
  rw [getLsbD_encodeAccess_write]
  interval_cases i <;> simp

/-- R59, R60: the word of a read as the spec writes it. -/
theorem encodeAccess_read_eq_shift (o : Offset) : encodeAccess (.read o) = o.setWidth 16 <<< 8 := by
  revert o
  decide

/-- Settles O5: each statement's words are those of its accesses. -/
theorem statementsAssembleToTheirAccesses : Obligations.StatementsAssembleToTheirAccesses := by
  refine ⟨fun _ p v => congrArg (· :: []) (encodeAccess_write_eq_or _ v),
    fun _ p => congrArg (· :: []) (encodeAccess_read_eq_shift _),
    fun _ p v => decodeAccesses_map_encodeAccess [.write (portOffset p) v],
    fun _ p => decodeAccesses_map_encodeAccess [.read (portOffset p)],
    fun _ i => decodeAccesses_map_encodeAccess [.write 0x0 (encode i)], decodeAccesses_assemble_wait, fun n i => ?_⟩
  have hwords : assemble n (.op i) = (.write 0x0 (encode i) :: List.replicate n (.read 0x1)).map encodeAccess := by
    rw [List.map_cons, List.map_replicate]
    rfl
  rw [hwords, decodeAccesses_map_encodeAccess]

end Sys2Proof
end

section
/-! Turns and reads (20_memory.md R40, 43_command_control.md R93, 30_encoding.md R60): what each agent's turn is. -/

namespace Sys2Proof.Machine

/-- R40: a turn the script names is that agent's. -/
theorem step_of_script {s : State} {r : Turn} {ts : List Turn} (h : s.script = r :: ts) :
    step s = takeTurn r { s with script := ts } := by
  simp only [step, nextTurn, h]

/-- R40: while no command runs and the script is used up, the host moves. -/
theorem step_idle {s : State} (h : s.script = []) (hq : s.seq = .idle) : step s = hostStep s := by
  simp only [step, nextTurn, h, hq, takeTurn]

theorem hostStep_access {s : State} {a : HostAccess} {rest : List HostOp} (h : s.program = .access a :: rest) :
    hostStep s = hostAccess a { s with program := rest } := by
  simp only [hostStep, h]

/-- Settles O8: the script names the agent, or the schedule's rule does. -/
theorem stepIsTheTurnOfOneAgent : Obligations.StepIsTheTurnOfOneAgent := by
  refine ⟨fun s ts h => step_of_script h, fun s ts h => step_of_script h, fun s a rest ts h hp => ?_,
    fun s a rest h hq hp => (step_idle h hq).trans (hostStep_access hp), fun s => step_eager⟩
  exact (step_of_script h).trans (hostStep_access (s := { s with script := ts }) hp)

/-- Settles O7: the next access is the CMD write, and its byte decodes to the command. -/
theorem stepRunsTheDecodedCommand : Obligations.StepRunsTheDecodedCommand := by
  refine ⟨fun s i => ?_, fun s c i rest ts hc hp hscript => ?_⟩
  · have hbyte : decode (BitVec.ofNat 8 (encode i).toNat) = .ok i := by
      rw [BitVec.ofNat_toNat, BitVec.setWidth_eq]
      exact (commandEncodingIsOneToOne _ i).2 rfl
    exact (step_placeAccess _ s).trans (hostAccess_write_command hbyte s)
  · rw [step_of_script hscript]
    exact (hostStep_access (s := { s with script := ts }) hp).trans (hostAccess_write_command hc _)

/-- R17: the bits of the STATUS byte. -/
theorem statusByte_bits (st : Status) :
    (statusByte st).getLsbD 0 = st.busy ∧ (statusByte st).getLsbD 1 = st.done ∧ (statusByte st).getLsbD 2 = st.errRange ∧
      (statusByte st).getLsbD 3 = st.noData ∧ (statusByte st).getLsbD 4 = st.errIll ∧
      (statusByte st).getLsbD 5 = st.errBusy := by
  obtain ⟨busy, done, errRange, noData, errIll, errBusy⟩ := st
  revert busy done errRange noData errIll errBusy
  decide

/-- Settles O11: offset 1 is STATUS, and its byte is the six flags in order. -/
theorem statusByteLayout : Obligations.StatusByteLayout := fun s => ⟨rfl, statusByte_bits s.status⟩

/-- R93: a data register reads as its value. -/
theorem hostRead_regOffset (s : State) (r : Reg) : hostRead s (regOffset r) = regVal s.regs r := by
  rw [hostRead, portOf_regOffset]

/-- Settles O12: a read adds to the host's record, and its value is that of the port. -/
theorem hostReadHasNoSideEffect : Obligations.HostReadHasNoSideEffect :=
  fun s => ⟨fun _ => rfl, hostRead_regOffset s, rfl⟩

/-! ### A wait -/

theorem hostStep_wait {s : State} {rest : List HostOp} (h : s.program = .wait :: rest) :
    hostStep s = .next { s with
      reads := s.reads ++ [⟨0x1, statusByte s.status⟩]
      program := if s.status.busy then .wait :: rest else rest } := by
  obtain ⟨hp, -⟩ | ⟨a, r, hp, -⟩ | ⟨r, hp, hs⟩ := hostStep_cases s <;> cases h.symm.trans hp
  exact hs

/-- R60: a turn never lengthens the host's program. -/
theorem length_program_of_takeTurn {r : Turn} {s t : State} (h : takeTurn r s = .next t) :
    t.program.length ≤ s.program.length := by
  cases r with
  | sequencer => exact (congrArg List.length (host_of_seqStep h).1).le
  | reset =>
    cases h
    exact le_rfl
  | host =>
    obtain ⟨-, hs⟩ | ⟨a, rest, hp, hs⟩ | ⟨rest, hp, hs⟩ := hostStep_cases s <;> rw [takeTurn, hs] at h
    · cases h
      exact le_rfl
    · rw [(hostEffect_of_next h).program, hp]
      exact Nat.le_succ _
    · cases h
      change (if s.status.busy then HostOp.wait :: rest else rest).length ≤ _
      rw [hp]
      split
      · exact le_rfl
      · exact Nat.le_succ _

theorem takeTurns_cons {r : Turn} {ts : List Turn} {s u : State} (h : takeTurns (r :: ts) s = .next u) :
    ∃ s', takeTurn r s = .next s' ∧ takeTurns ts s' = .next u := by
  rw [takeTurns] at h
  split at h
  · next s' hs => exact ⟨s', hs, h⟩
  · cases h
  · cases h

theorem length_program_of_takeTurns {ts : List Turn} {s u : State} (h : takeTurns ts s = .next u) :
    u.program.length ≤ s.program.length := by
  induction ts generalizing s with
  | nil =>
    cases h
    exact le_rfl
  | cons r ts ih =>
    obtain ⟨s', hs, hu⟩ := takeTurns_cons h
    exact (ih hu).trans (length_program_of_takeTurn hs)

/-- What a wait records of the bytes it reads. -/
def statusReads (bs : List Byte) : List HostRead := bs.map fun b => ⟨0x1, b⟩

/-- One `rd STATUS`. -/
def readStatus : HostOp := .access (.read 0x1)

/-- R60: the bytes a wait has read while BUSY. -/
def AllBusy (bs : List Byte) : Prop := ∀ b ∈ bs, b.getLsbD 0 = true

/-- R60: one turn of a wait that is not over. It stands where it was, and has read BUSY if the turn was the host's; a `rd STATUS`
in its place makes the same turn. -/
theorem takeTurn_waiting {r : Turn} {s s' : State} {rest : List HostOp} (hs : s.program = .wait :: rest)
    (h : takeTurn r s = .next s') (hlen : rest.length < s'.program.length) :
    s'.program = .wait :: rest ∧ ∃ bs, AllBusy bs ∧ bs.length = [r].count .host ∧ s'.reads = s.reads ++ statusReads bs ∧
      ∀ q, takeTurn r { s with program := List.replicate bs.length readStatus ++ q } = .next { s' with program := q } := by
  cases r with
  | sequencer =>
    obtain ⟨hprogram, hreads, -, -⟩ := host_of_seqStep h
    exact ⟨hprogram.trans hs, [], nofun, rfl, hreads.trans (List.append_nil _).symm, fun q => seqStep_program q h⟩
  | reset =>
    cases h
    exact ⟨hs, [], nofun, rfl, (List.append_nil _).symm, fun q => rfl⟩
  | host =>
    rw [takeTurn, hostStep_wait hs] at h
    cases hb : s.status.busy with
    | false =>
      cases h
      simp [hb] at hlen
    | true =>
      cases h
      refine ⟨by rw [hb]; rfl, [statusByte s.status], ?_, rfl, rfl, fun q => rfl⟩
      intro b hmem
      rw [List.mem_singleton.1 hmem, (statusByte_bits s.status).1, hb]

/-- R60: any turns of a wait that is not over after them. -/
theorem takeTurns_waiting {ts : List Turn} {s u : State} {rest : List HostOp} (hs : s.program = .wait :: rest)
    (h : takeTurns ts s = .next u) (hu : u.program = .wait :: rest) :
    ∃ bs, AllBusy bs ∧ bs.length = ts.count .host ∧ u.reads = s.reads ++ statusReads bs ∧
      ∀ q, takeTurns ts { s with program := List.replicate bs.length readStatus ++ q } = .next { u with program := q } := by
  induction ts generalizing s with
  | nil =>
    cases h
    exact ⟨[], nofun, rfl, (List.append_nil _).symm, fun q => rfl⟩
  | cons r ts ih =>
    obtain ⟨s', hturn, hturns⟩ := takeTurns_cons h
    have hlen : rest.length < s'.program.length := by
      have := length_program_of_takeTurns hturns
      rwa [hu] at this
    obtain ⟨hs', as, hbusy, hcount, hreads, hrun⟩ := takeTurn_waiting hs hturn hlen
    obtain ⟨bs, hbusys, hcounts, hreadss, hruns⟩ := ih hs' hturns
    refine ⟨as ++ bs, ?_, ?_, ?_, fun q => ?_⟩
    · exact fun b hb => (List.mem_append.1 hb).elim (hbusy b) (hbusys b)
    · rw [List.length_append, hcount, hcounts, ← List.count_append, List.singleton_append]
    · rw [hreadss, hreads, statusReads, statusReads, statusReads, List.map_append, List.append_assoc]
    · rw [List.length_append, List.replicate_add, List.append_assoc, takeTurns, hrun]
      exact hruns q

/-- R60: the last byte of a wait is the first with BUSY clear. -/
theorem waitReadsWellFormed_concat {bs : List Byte} (hbs : AllBusy bs) {b : Byte} (hb : b.getLsbD 0 = false) :
    waitReadsWellFormed (bs ++ [b]) = true := by
  induction bs with
  | nil =>
    change (!b.getLsbD 0) = true
    rw [hb]
    rfl
  | cons c cs ih =>
    have hc : c.getLsbD 0 = true := hbs c List.mem_cons_self
    have hcs : waitReadsWellFormed (cs ++ [b]) = true := ih fun d hd => hbs d (List.mem_cons_of_mem c hd)
    cases cs <;> simpa [waitReadsWellFormed, hc] using hcs

/-- R60: the turn that ends a wait reads BUSY clear, and a `rd STATUS` in its place makes the same turn. -/
theorem hostStep_wait_over {u t : State} {rest : List HostOp} (hu : u.program = .wait :: rest) (h : hostStep u = .next t)
    (ht : t.program = rest) :
    ∃ b : Byte, b.getLsbD 0 = false ∧ t.reads = u.reads ++ statusReads [b] ∧
      hostStep { u with program := readStatus :: rest } = .next t := by
  rw [hostStep_wait hu] at h
  cases hb : u.status.busy with
  | true =>
    cases h
    simp [hb] at ht
  | false =>
    cases h
    refine ⟨statusByte u.status, by rw [(statusByte_bits u.status).1, hb], rfl, ?_⟩
    rw [hb]
    rfl

/-- Settles O17: each turn of a wait is that of one `rd STATUS`, so the whole wait is that of a run of them. -/
theorem waitReadsStatusUntilBusyIsClear : Obligations.WaitReadsStatusUntilBusyIsClear := by
  refine ⟨fun s rest hs => hostStep_wait hs, fun s ts h => step_of_script h, ?_⟩
  intro ts s u t rest hs hturns hu hlast ht
  obtain ⟨bs, hbusy, hcount, hreads, hruns⟩ := takeTurns_waiting hs hturns hu
  obtain ⟨b, hb, hread, hover⟩ := hostStep_wait_over hu hlast ht
  refine ⟨bs ++ [b], _, waitReadsWellFormed_concat hbusy hb, by rw [List.length_append, hcount]; rfl, ?_,
    decodeAccesses_assemble_wait _, ?_⟩
  · rw [hread, hreads, List.append_assoc, statusReads, statusReads, List.map_append]
  · have hprogram : (List.replicate (bs ++ [b]).length (HostAccess.read 0x1)).map HostOp.access ++ rest =
        List.replicate bs.length readStatus ++ readStatus :: rest := by
      rw [List.map_replicate, List.length_append, List.replicate_add, List.append_assoc]
      rfl
    rw [hprogram, takeTurns_append ts [.host] (hruns _), takeTurns, takeTurn, hover]
    rfl

end Sys2Proof.Machine
end

section
/-! Reset (10_state.md R37, R38, 70_reset_and_hazards.md R119). -/

namespace Sys2Proof.Machine

/-- Settles O54: each clause is a field of the reset state, or a read of one. -/
theorem resetStateAsSpecified : Obligations.ResetStateAsSpecified := by
  refine ⟨by decide, rfl, rfl, rfl, rfl, rfl, fun r => ?_⟩
  exact congrArg DataReg.written (regGet_unwritten r)

/-- R119: with no command running a reset does not reach the environment. -/
theorem envReset_idle (n : Nat) (l : Latch) (e : BusEnv) : envReset n .idle l e = e := by
  unfold envReset
  cases e.kind <;> rfl

/-- Settles O55: each clause is a field of the state after the reset action. -/
theorem resetAbandonsTheCommand : Obligations.ResetAbandonsTheCommand := by
  intro s
  refine ⟨rfl, (by decide : statusByte .zero = 0x00), rfl, fun r => ?_, rfl, rfl, fun hq => ?_⟩
  · exact congrArg DataReg.written (regGet_unwritten r)
  · rw [applyReset_env, hq, envReset_idle]

end Sys2Proof.Machine
end

section
/-! The codec on bytes (40_bcd_codec.md R69 to R76), as arithmetic on the two decimal digits and the two nibbles. -/

namespace Sys2Proof.Machine

/-- R69: the digits do not overlap, so the encoder adds them. -/
theorem enc_eq (v : Byte) : enc v = 16 * (v.toNat / 10) + v.toNat % 10 := by
  rw [enc, ← Nat.shiftLeft_add_eq_or_of_lt (by omega), Nat.shiftLeft_eq]
  omega

/-- R73: up to 99 the encoded number is a byte. -/
theorem toNat_trunc8_enc {v : Byte} (hv : v.toNat ≤ 99) : (trunc8 (enc v)).toNat = 16 * (v.toNat / 10) + v.toNat % 10 := by
  rw [trunc8, BitVec.toNat_ofNat, enc_eq]
  omega

theorem toNat_highNibble (v : Byte) : (v.extractLsb' 4 4).toNat = v.toNat / 16 := by
  have hv := v.isLt
  rw [BitVec.extractLsb'_toNat, Nat.shiftRight_eq_div_pow]
  omega

theorem toNat_lowNibble (v : Byte) : (v.extractLsb' 0 4).toNat = v.toNat % 16 := by
  rw [BitVec.extractLsb'_toNat, Nat.shiftRight_zero]

/-- R61: valid BCD, as arithmetic. -/
theorem validBcd_iff (v : Byte) : validBcd v = true ↔ v.toNat / 16 ≤ 9 ∧ v.toNat % 16 ≤ 9 := by
  rw [validBcd, Bool.and_eq_true, decide_eq_true_iff, decide_eq_true_iff, toNat_highNibble, toNat_lowNibble]

/-- Settles O21: the encoder's sum has the digits as its nibbles. -/
theorem encNibblesAreTensAndUnits : Obligations.EncNibblesAreTensAndUnits := by
  intro d hd
  rw [toNat_highNibble, toNat_lowNibble, toNat_trunc8_enc hd, enc_eq]
  omega

/-- Settles O22: the nibbles are at most 15. -/
theorem decWeighsTheNibbles : Obligations.DecWeighsTheNibbles := by
  intro v
  have hv := v.isLt
  rw [toNat_dec]
  omega

/-- R72: decoding inverts encoding up to 99. -/
theorem dec_trunc8_enc {v : Byte} (hv : v.toNat ≤ 99) : dec (trunc8 (enc v)) = v := by
  apply BitVec.eq_of_toNat_eq
  rw [toNat_dec, toNat_trunc8_enc hv]
  omega

theorem toNat_dec_of_validBcd {b : Byte} (hb : validBcd b = true) : (dec b).toNat ≤ 99 := by
  rw [validBcd_iff] at hb
  rw [toNat_dec]
  omega

/-- R72: encoding inverts decoding on valid BCD. -/
theorem trunc8_enc_dec {b : Byte} (hb : validBcd b = true) : trunc8 (enc (dec b)) = b := by
  apply BitVec.eq_of_toNat_eq
  rw [toNat_trunc8_enc (toNat_dec_of_validBcd hb), toNat_dec]
  rw [validBcd_iff] at hb
  omega

theorem validBcd_trunc8_enc {v : Byte} (hv : v.toNat ≤ 99) : validBcd (trunc8 (enc v)) = true := by
  rw [validBcd_iff, toNat_trunc8_enc hv]
  omega

/-- Settles O23: the two round trips are the digits' and the nibbles'. -/
theorem codecRoundTrip : Obligations.CodecRoundTrip :=
  ⟨fun _ => dec_trunc8_enc, fun _ => trunc8_enc_dec, by decide, by decide⟩

/-- R76: every value up to 165 is decoded from a byte. -/
theorem exists_toNat_dec_eq {n : Nat} (hn : n ≤ 165) : ∃ v : Byte, (dec v).toNat = n := by
  have hdec (m : Nat) (hm : m < 256) : (dec (BitVec.ofNat 8 m)).toNat = m / 16 * 10 + m % 16 := by
    rw [toNat_dec, BitVec.toNat_ofNat, Nat.mod_eq_of_lt hm]
  by_cases h : n < 160
  · refine ⟨BitVec.ofNat 8 (16 * (n / 10) + n % 10), ?_⟩
    rw [hdec _ (by omega)]
    omega
  · refine ⟨BitVec.ofNat 8 (n + 90), ?_⟩
    rw [hdec _ (by omega)]
    omega

/-- Settles O24: on valid BCD the encoder inverts the decoder, which gives the bijection; the aliases are two bytes. -/
theorem codecImageAndAliases : Obligations.CodecImageAndAliases := by
  refine ⟨fun v => toNat_dec_of_validBcd, fun v w hv hw h => ?_,
    fun d hd => ⟨trunc8 (enc d), validBcd_trunc8_enc hd, dec_trunc8_enc hd⟩, by decide, fun _ => rfl, fun n => exists_toNat_dec_eq⟩
  rw [← trunc8_enc_dec hv, h, trunc8_enc_dec hw]

end Sys2Proof.Machine
end

section
/-! Time records (41_rtc_register_mux.md R77 to R86): the ranges of their fields, packing and unpacking. -/

namespace Sys2Proof.Machine

/-- R78: a field's own range. -/
theorem inRange_iff (i : Nat) (v : Byte) : inRange i v = true ↔ rangeLo i ≤ v.toNat ∧ v.toNat ≤ rangeHi i := by
  rw [inRange, Bool.and_eq_true, decide_eq_true_iff, decide_eq_true_iff]

/-- Settles O26: the check is the conjunction of the seven ranges, of which two have a lower bound. -/
theorem fieldRangesAreTheDocumentedOnes : Obligations.FieldRangesAreTheDocumentedOnes := by
  intro t
  simp only [timeInRange, Bool.and_eq_true, inRange_iff, rangeLo, rangeHi, Nat.zero_le, true_and, and_assoc]

/-- R80: up to 99 a byte is sent as its BCD encoding. -/
theorem encByte_of_le (p : Params) {v : Byte} (hv : v.toNat ≤ 99) : encByte p v = trunc8 (enc v) := if_pos hv

theorem toNat_encByte (p : Params) {v : Byte} (hv : v.toNat ≤ 99) : (encByte p v).toNat = 16 * (v.toNat / 10) + v.toNat % 10 := by
  rw [encByte_of_le p hv, toNat_trunc8_enc hv]

theorem dec_encByte (p : Params) {v : Byte} (hv : v.toNat ≤ 99) : dec (encByte p v) = v := by
  rw [encByte_of_le p hv, dec_trunc8_enc hv]

/-- R79: the mask of the second keeps seven bits. -/
theorem toNat_and_7F (v : Byte) : (v &&& 0x7F).toNat = v.toNat % 128 := by
  rw [BitVec.toNat_and]
  exact Nat.and_two_pow_sub_one_eq_mod v.toNat 7

/-- R79: the mask of the hour keeps six bits. -/
theorem toNat_and_3F (v : Byte) : (v &&& 0x3F).toNat = v.toNat % 64 := by
  rw [BitVec.toNat_and]
  exact Nat.and_two_pow_sub_one_eq_mod v.toNat 6

/-- R84: the mask of the second does not touch an encoded number below 80. -/
theorem encByte_and_7F (p : Params) {v : Byte} (hv : v.toNat ≤ 79) : encByte p v &&& 0x7F = encByte p v := by
  apply BitVec.eq_of_toNat_eq
  rw [toNat_and_7F, toNat_encByte p (by omega)]
  omega

/-- R84: the mask of the hour does not touch an encoded number below 40. -/
theorem encByte_and_3F (p : Params) {v : Byte} (hv : v.toNat ≤ 39) : encByte p v &&& 0x3F = encByte p v := by
  apply BitVec.eq_of_toNat_eq
  rw [toNat_and_3F, toNat_encByte p (by omega)]
  omega

/-- R84: an in-range record comes back from its packed form. -/
theorem unpack_pack (p : Params) {t : Bytes7} (ht : timeInRange t = true) : unpack (pack p t) = t := by
  obtain ⟨h0, h1, h2, h3, ⟨-, h4⟩, ⟨-, h5⟩, h6⟩ := (fieldRangesAreTheDocumentedOnes t).1 ht
  rw [unpack_eq, pack, mapBytes7]
  dsimp only
  rw [encByte_and_7F p (by omega), encByte_and_3F p (by omega), dec_encByte p (by omega), dec_encByte p (by omega),
    dec_encByte p (by omega), dec_encByte p (by omega), dec_encByte p (by omega), dec_encByte p (by omega), dec_encByte p h6]

/-- Settles O30: each field is at most 99 and its code is not cut by its mask; 85 and 45 are the counterexamples. -/
theorem packUnpackRoundTrip : Obligations.PackUnpackRoundTrip := by
  refine ⟨fun p t => unpack_pack p, fun p t h => ?_, fun p t h => ?_⟩
  · have hb0 : (unpack (pack p t)).b0 = dec (encByte p t.b0 &&& 0x7F) := rfl
    rw [hb0, h, encByte_of_le p (by decide)]
    decide
  · have hb2 : (unpack (pack p t)).b2 = dec (encByte p t.b2 &&& 0x3F) := rfl
    rw [hb2, h, encByte_of_le p (by decide)]
    decide

/-- Settles O31: the masks of the second and the hour bound their high nibbles. -/
theorem unpackedFieldsAreBounded : Obligations.UnpackedFieldsAreBounded := by
  intro b
  have hbound (v : Byte) : (dec v).toNat ≤ 165 := (decWeighsTheNibbles v).2
  rw [unpack_eq]
  refine ⟨?_, ?_, hbound _, hbound _, hbound _, hbound _, hbound _⟩
  · change (dec (b.b0 &&& 0x7F)).toNat ≤ 85
    rw [toNat_dec, toNat_and_7F]
    omega
  · change (dec (b.b2 &&& 0x3F)).toNat ≤ 45
    rw [toNat_dec, toNat_and_3F]
    omega

/-- Settles O32: an in-range second is encoded below 0x80, and an in-range hour below 0x40. -/
theorem inRangeRecordsSendZeroControlBits : Obligations.InRangeRecordsSendZeroControlBits := by
  intro p t ht
  obtain ⟨h0, -, h2, -⟩ := (fieldRangesAreTheDocumentedOnes t).1 ht
  constructor
  · change (encByte p t.b0).getLsbD 7 = false
    refine Nat.testBit_lt_two_pow ?_
    rw [toNat_encByte p (by omega)]
    omega
  · change (encByte p t.b2).extractLsb' 6 2 = 0#2
    have hlt : (encByte p t.b2).toNat < 2 ^ 6 := by
      rw [toNat_encByte p (by omega)]
      omega
    apply BitVec.eq_of_toNat_eq
    rw [BitVec.extractLsb'_toNat, Nat.shiftRight_eq_div_pow, Nat.div_eq_of_lt hlt]
    rfl

end Sys2Proof.Machine
end

section
/-! The reference devices (20_memory.md R50 to R52): runs of bytes with the RTC's 8-bit pointer, and the answers of the bus. -/

namespace Sys2Proof.Machine

/-! ### Runs of bytes -/

/-- R50: the pointer wraps at 256. -/
theorem toNat_succ_add_mod (p : Byte) (i : Nat) : ((p + 1).toNat + i) % 256 = (p.toNat + (i + 1)) % 256 := by
  have hp : (p + 1).toNat = (p.toNat + 1) % 256 := BitVec.toNat_add p 1
  omega

/-- R50: moving the pointer by one and then by `n`. -/
theorem add_one_add_ofNat (p : Byte) (n : Nat) : p + 1 + BitVec.ofNat 8 n = p + BitVec.ofNat 8 (n + 1) := by
  rw [BitVec.add_assoc, BitVec.ofNat_add, BitVec.add_comm 1]
  rfl

/-- R50: the pointer after a run of bytes. -/
theorem writeBytes_snd (m : Memory) (p : Byte) (bs : List Byte) :
    (writeBytes m p bs).2 = p + BitVec.ofNat 8 bs.length := by
  induction bs generalizing m p with
  | nil => exact (BitVec.add_zero p).symm
  | cons b bs ih => rw [writeBytes, ih, add_one_add_ofNat, List.length_cons]

/-- R50: a run of bytes leaves every address it does not reach. -/
theorem readByte_writeBytes_other (m : Memory) {p : Byte} {bs : List Byte} {a : Nat}
    (ha : ∀ i < bs.length, a ≠ (p.toNat + i) % 256) : readByte (writeBytes m p bs).1 a = readByte m a := by
  induction bs generalizing m p with
  | nil => rfl
  | cons b bs ih =>
    have hrest : ∀ i < bs.length, a ≠ ((p + 1).toNat + i) % 256 := fun i hi => by
      rw [toNat_succ_add_mod]
      exact ha (i + 1) (Nat.succ_lt_succ hi)
    have hfirst : a ≠ p.toNat := by
      have := ha 0 (Nat.succ_pos _)
      rwa [Nat.add_zero, Nat.mod_eq_of_lt p.isLt] at this
    rw [writeBytes, ih _ hrest, readByte_writeByte_other m b hfirst]

/-- R50: of a run of at most 256 bytes each is where the pointer stood when it came. -/
theorem readByte_writeBytes_same {m : Memory} (hm : m.wf = true) (p : Byte) {bs : List Byte} (hbs : bs.length ≤ 256)
    {i : Nat} (hi : i < bs.length) : some (readByte (writeBytes m p bs).1 ((p.toNat + i) % 256)) = bs[i]? := by
  induction bs generalizing m p i with
  | nil => cases hi
  | cons b bs ih =>
    rw [List.length_cons] at hbs hi
    rw [writeBytes]
    cases i with
    | zero =>
      have hunreached : ∀ j < bs.length, p.toNat ≠ ((p + 1).toNat + j) % 256 := fun j hj => by
        have hp := p.isLt
        rw [toNat_succ_add_mod]
        omega
      rw [Nat.add_zero, Nat.mod_eq_of_lt p.isLt, readByte_writeBytes_other _ hunreached, readByte_writeByte_same _ b hm]
      rfl
    | succ i =>
      rw [← toNat_succ_add_mod, ih (wf_writeByte p.toNat b hm) (p + 1) (by omega) (Nat.lt_of_succ_lt_succ hi),
        List.getElem?_cons_succ]

/-- R50: the bytes of a request. -/
theorem getElem?_readBytes (m : Memory) (p : Byte) {n i : Nat} (hi : i < n) :
    (readBytes m p n).1[i]? = some (readByte m ((p.toNat + i) % 256)) := by
  induction n generalizing p i with
  | zero => cases hi
  | succ n ih =>
    rw [readBytes]
    cases i with
    | zero => rw [Nat.add_zero, Nat.mod_eq_of_lt p.isLt, List.getElem?_cons_zero]
    | succ i => rw [List.getElem?_cons_succ, ih (p + 1) (Nat.lt_of_succ_lt_succ hi), toNat_succ_add_mod]

theorem length_readBytes (m : Memory) (p : Byte) (n : Nat) : (readBytes m p n).1.length = n := by
  induction n generalizing p with
  | zero => rfl
  | succ n ih => rw [readBytes, List.length_cons, ih]

/-- R50: the pointer after a request. -/
theorem readBytes_snd (m : Memory) (p : Byte) (n : Nat) : (readBytes m p n).2 = p + BitVec.ofNat 8 n := by
  induction n generalizing p with
  | zero => exact (BitVec.add_zero p).symm
  | succ n ih => rw [readBytes, ih, add_one_add_ofNat]

theorem rtcTransaction_normal {r : RefRtc} (hr : r.variant = .normal) (p : Byte) (bs : List Byte) :
    rtcTransaction r (p :: bs) = { r with mem := (writeBytes r.mem p bs).1, ptr := (writeBytes r.mem p bs).2 } := by
  rw [rtcTransaction, hr]

/-- R52: how a request is answered in each variant. -/
theorem rtcRequest_eq (r : RefRtc) (n : Nat) : rtcRequest r n =
    ((readBytes r.mem r.ptr (queued r.variant n)).1, { r with ptr := r.ptr + BitVec.ofNat 8 (queued r.variant n) }) := by
  rw [rtcRequest, readBytes_snd]

/-- Settles O39: a transaction is a run of writes from its first byte on, and a request a run of reads from the pointer on. -/
theorem referenceRtcAutoIncrements : Obligations.ReferenceRtcAutoIncrements := by
  intro r p bs hr hm hbs
  rw [rtcTransaction_normal hr]
  refine ⟨fun i hi => readByte_writeBytes_same hm p hbs hi, fun a ha => readByte_writeBytes_other r.mem ha,
    writeBytes_snd r.mem p bs, fun n i hi => ?_, fun n => ?_⟩
  · rw [rtcRequest_eq, hr]
    exact getElem?_readBytes r.mem r.ptr hi
  · rw [rtcRequest_eq, hr]
    rfl

/-! ### The answers of the bus -/

/-- R51, R52: an EEPROM in no write cycle queues the addressed byte as often as its variant says: once or never. -/
theorem eeRequest_one {e : RefEeprom} (hc : e.writeCycle = none) (n : Nat) :
    eeRequest n e 1 = (List.replicate (queued e.variant 1) (readByte e.mem e.ptr.toNat), e) := by
  rw [eeRequest, hc]
  cases e.variant <;> rfl

theorem rtcTransaction_absent {r : RefRtc} (hr : r.variant = .absent) (bs : List Byte) : rtcTransaction r bs = r := by
  simp only [rtcTransaction, hr]

theorem eeTransaction_absent {e : RefEeprom} (he : e.variant = .absent) (n : Nat) (bs : List Byte) :
    eeTransaction n e bs = e := by
  simp only [eeTransaction, he]

/-- Settles O40: the queue answers, and each variant's request and transaction are read off their definitions. -/
theorem referenceBusQueuesAndVariants : Obligations.ReferenceBusQueuesAndVariants := by
  refine ⟨fun n b => ?_, fun n b v q h => ?_, fun r k n h => ?_, fun e n h hc => ?_, fun e k n h hc => ?_,
    fun r bs n h => ⟨rtcTransaction_absent h bs, ?_⟩, fun e bs m n h => ⟨eeTransaction_absent h m bs, ?_⟩,
    fun n cnt b id bs hr he => ⟨?_, ?_⟩⟩
  · rw [refCall]
    cases b.queue <;> rfl
  · rw [refCall, h]
  · rw [rtcRequest_eq, rtcRequest_eq, h]
    exact ⟨rfl, length_readBytes _ _ _, rfl⟩
  · rw [eeRequest_one hc, h]
    rfl
  · rw [eeRequest_one hc, h]
    cases k with
    | zero => rfl
    | succ k =>
      have hone : queued (.short (k + 1)) 1 = 1 := Nat.min_eq_right (Nat.succ_pos k)
      rw [hone, List.take_succ_cons, List.take_nil]
      rfl
  · have hnone : queued r.variant n = 0 := by rw [h]; rfl
    rw [rtcRequest, hnone]
    rfl
  · rw [eeRequest, h]
  · rw [deliver, if_neg hr, if_neg he]
  · rw [request, if_neg hr, if_neg he]

end Sys2Proof.Machine
end

section
/-! A reset in the middle of a command (70_reset_and_hazards.md R120): what it can change on the reference bus. -/

namespace Sys2Proof.Machine

theorem envReset_free (n : Nat) (q : Seq) (l : Latch) {e : BusEnv} (h : e.kind = .free) : envReset n q l e = e := by
  simp only [envReset, h]

theorem envReset_run (n : Nat) (op : SeqOp) (k : Nat) (l : Latch) {e : BusEnv} (h : e.kind = .reference) :
    envReset n (.run op k) l e = { e with ref := refAbandon n op k l e.ref } := by
  simp only [envReset, h]

/-- R120: with no transaction open and no SETTLE awaited the bus stays as it is. -/
theorem refAbandon_closed (n : Nat) {op : SeqOp} {k : Nat} (l : Latch) (b : RefBus) (ho : txnOpenAt op k = false)
    (hs : settlingAt op k = false) : refAbandon n op k l b = b := by
  simp [refAbandon, ho, hs]

/-- R120: the RTC is in reach of an abandoned transaction of RTCW or RTCR alone. -/
theorem refAbandon_rtc (n : Nat) (op : SeqOp) (k : Nat) (l : Latch) (b : RefBus) :
    (refAbandon n op k l b).rtc = b.rtc ∨
      (op = .rtcw ∨ op = .rtcr) ∧ (refAbandon n op k l b).rtc = rtcAbandon n op b.rtc := by
  unfold refAbandon
  split
  · cases op with
    | rtcw => exact .inr ⟨.inl rfl, rfl⟩
    | rtcr => exact .inr ⟨.inr rfl, rfl⟩
    | eew | eer => exact .inl rfl
  · split <;> exact .inl rfl

/-- R120: the EEPROM is in reach of an abandoned transaction of EEW or EER, and of a write of EEW awaiting its SETTLE. -/
theorem refAbandon_ee (n : Nat) (op : SeqOp) (k : Nat) (l : Latch) (b : RefBus) :
    (refAbandon n op k l b).ee = b.ee ∨
      ((op = .eew ∨ op = .eer) ∧ txnOpenAt op k = true ∧ (refAbandon n op k l b).ee = eeAbandon n op l b.ee) ∨
      (op = .eew ∧ settlingAt op k = true ∧ (refAbandon n op k l b).ee = eeAbandonSettle n b.ee) := by
  unfold refAbandon
  split
  · next ho =>
    cases op with
    | rtcw | rtcr => exact .inl rfl
    | eew => exact .inr (.inl ⟨.inl rfl, ho, rfl⟩)
    | eer => exact .inr (.inl ⟨.inr rfl, ho, rfl⟩)
  · split
    · next hs =>
      cases op with
      | eew => exact .inr (.inr ⟨rfl, hs, rfl⟩)
      | rtcw | rtcr | eer => cases hs
    · exact .inl rfl

/-! ### The RTC -/

theorem rtcAbandon_variant (n : Nat) (op : SeqOp) (r : RefRtc) : (rtcAbandon n op r).variant = r.variant := by
  unfold rtcAbandon
  split
  · rfl
  all_goals cases op <;> rfl

/-- R120: RTCW leaves the registers past the seven, and RTCR every register. -/
theorem readByte_rtcAbandon (n : Nat) {op : SeqOp} (r : RefRtc) {a : Nat} (ha : op = .rtcw → 7 ≤ a) :
    readByte (rtcAbandon n op r).mem a = readByte r.mem a := by
  unfold rtcAbandon
  split
  · rfl
  all_goals
    cases op with
    | rtcw =>
      refine readByte_writeBytes_other r.mem fun i hi => ?_
      rw [List.length_map, List.length_range] at hi
      have := ha rfl
      change a ≠ (0 + i) % 256
      omega
    | rtcr | eew | eer => rfl

/-! ### The EEPROM -/

theorem eeAbandon_variant (n : Nat) (op : SeqOp) (l : Latch) (e : RefEeprom) : (eeAbandon n op l e).variant = e.variant := by
  unfold eeAbandon
  split
  · rfl
  all_goals
    split
    · rfl
    · cases op <;> rfl

theorem eeAbandonSettle_variant (n : Nat) (e : RefEeprom) : (eeAbandonSettle n e).variant = e.variant := by
  unfold eeAbandonSettle
  split <;> rfl

/-- R66: with bit 15 clear the nominal address is the operand. -/
theorem toNat_low15 {a : EeAddr} (h : a.getLsbD 15 = false) : (a.extractLsb' 0 15).toNat = a.toNat := by
  have ha : a.toNat ≤ 32767 := (eeInRange_iff a).1 ((eeInRange_iff_bit15 a).2 h)
  rw [BitVec.extractLsb'_toNat, Nat.shiftRight_zero, Nat.mod_eq_of_lt (by omega)]

/-- R120: after an abandoned EEW the EEPROM's bytes are the old ones, or those with the latched byte written. -/
def OldOrWritten (op : SeqOp) (l : Latch) (e e' : RefEeprom) : Prop :=
  e'.mem = e.mem ∨ op = .eew ∧ e'.mem = writeByte e.mem l.addr.toNat l.data

theorem eeOldOrNew_cases (n : Nat) (m : Memory) {l : Latch} (h : l.addr.getLsbD 15 = false) :
    eeOldOrNew n m (l.addr.extractLsb' 0 15) l.data = m ∨
      eeOldOrNew n m (l.addr.extractLsb' 0 15) l.data = writeByte m l.addr.toNat l.data := by
  unfold eeOldOrNew
  split
  · rw [toNat_low15 h]
    exact .inr rfl
  · exact .inl rfl

theorem oldOrWritten_abandon (n : Nat) (op : SeqOp) {l : Latch} {e : RefEeprom} (h : l.addr.getLsbD 15 = false)
    (hc : e.writeCycle = none) : OldOrWritten op l e (eeAbandon n op l e) := by
  unfold eeAbandon
  split
  · exact .inl rfl
  all_goals
    rw [h, hc]
    cases op with
    | eew => exact (eeOldOrNew_cases n e.mem h).imp id fun hw => ⟨rfl, hw⟩
    | rtcw | rtcr | eer => exact .inl rfl

theorem oldOrWritten_abandonSettle (n : Nat) {l : Latch} {e : RefEeprom} (h : l.addr.getLsbD 15 = false)
    (hc : ∀ c, e.writeCycle = some c → c = (l.addr.extractLsb' 0 15, l.data)) :
    OldOrWritten .eew l e (eeAbandonSettle n e) := by
  unfold eeAbandonSettle
  split
  · next hcycle =>
    cases hc _ hcycle
    exact (eeOldOrNew_cases n e.mem h).imp id fun hw => ⟨rfl, hw⟩
  · exact .inl rfl

theorem oldOrWritten_refAbandon (n : Nat) (op : SeqOp) (k : Nat) {l : Latch} {b : RefBus} (h : l.addr.getLsbD 15 = false)
    (hopen : txnOpenAt op k = true → b.ee.writeCycle = none)
    (hsettle : settlingAt op k = true → ∀ c, b.ee.writeCycle = some c → c = (l.addr.extractLsb' 0 15, l.data)) :
    OldOrWritten op l b.ee (refAbandon n op k l b).ee := by
  obtain hee | ⟨-, ho, hee⟩ | ⟨rfl, hs, hee⟩ := refAbandon_ee n op k l b <;> rw [hee]
  · exact .inl rfl
  · exact oldOrWritten_abandon n op h (hopen ho)
  · exact oldOrWritten_abandonSettle n h (hsettle hs)

/-- R120: so only EEW touches a byte, and of all bytes only the addressed one. -/
theorem OldOrWritten.readByte_other {op : SeqOp} {l : Latch} {e e' : RefEeprom} (h : OldOrWritten op l e e') {a : Nat}
    (ha : op = .eew → a ≠ l.addr.toNat) : readByte e'.mem a = readByte e.mem a := by
  obtain hsame | ⟨hop, hw⟩ := h
  · rw [hsame]
  · rw [hw, readByte_writeByte_other _ _ (ha hop)]

/-- R120: the addressed byte is the old one or the new one. -/
theorem OldOrWritten.readByte_addr {op : SeqOp} {l : Latch} {e e' : RefEeprom} (h : OldOrWritten op l e e')
    (hm : e.mem.wf = true) : readByte e'.mem l.addr.toNat = readByte e.mem l.addr.toNat ∨ readByte e'.mem l.addr.toNat = l.data := by
  obtain hsame | ⟨-, hw⟩ := h
  · exact .inl (by rw [hsame])
  · exact .inr (by rw [hw, readByte_writeByte_same _ _ hm])

/-- Settles O41: the position in the frame says which device a reset can disturb, and the latch which of its bytes. -/
theorem resetMidCommandTouchesOnlyAddressedBytes : Obligations.ResetMidCommandTouchesOnlyAddressedBytes := by
  refine ⟨fun s hk => envReset_free _ _ _ hk, fun s op k hq hk => ?_⟩
  have henv : (applyReset s).env = { s.env with ref := refAbandon s.draws op k s.latch s.env.ref } := by
    rw [applyReset_env, hq, envReset_run _ _ _ _ hk]
  have hwf : DevicesWf s.env.ref → DevicesWf (applyReset s).env.ref := devicesWf_envReset _ _ _
  rw [henv] at hwf ⊢
  have hrtc := refAbandon_rtc s.draws op k s.latch s.env.ref
  have hee := refAbandon_ee s.draws op k s.latch s.env.ref
  refine ⟨fun ho hs => ?_, fun a ha => ?_, fun hop => ?_, fun hop => ?_, fun h15 hopen hsettle => ?_, hwf, rfl, rfl, rfl, ?_, ?_⟩
  · rw [refAbandon_closed _ _ _ ho hs]
  · obtain hsame | ⟨-, habandon⟩ := hrtc
    · rw [hsame]
    · rw [habandon, readByte_rtcAbandon _ _ ha]
  · obtain hsame | ⟨rfl | rfl, -⟩ | ⟨rfl, -⟩ := hee
    · exact hsame
    all_goals cases hop <;> contradiction
  · obtain hsame | ⟨rfl | rfl, -⟩ := hrtc
    · exact hsame
    all_goals cases hop <;> contradiction
  · have hold := oldOrWritten_refAbandon s.draws op k h15 hopen hsettle
    exact ⟨fun a ha => hold.readByte_other ha, fun _ hm => hold.readByte_addr hm⟩
  · obtain hsame | ⟨-, habandon⟩ := hrtc
    · rw [hsame]
    · rw [habandon, rtcAbandon_variant]
  · obtain hsame | ⟨-, -, habandon⟩ | ⟨-, -, habandon⟩ := hee
    · rw [hsame]
    · rw [habandon, eeAbandon_variant]
    · rw [habandon, eeAbandonSettle_variant]

end Sys2Proof.Machine
end

section
/-! Runs in an environment whose answers are known (43_command_control.md R99): the calls are answered one after another,
whatever the free values are, and the command runs to its end on the answers. -/

namespace Sys2Proof.Machine

theorem envCall_free (n : Nat) {e : BusEnv} (hk : e.kind = .free) (c : BusCall) : envCall n e c = freeCall n e c := by
  simp only [envCall, hk]

theorem envCall_reference {n : Nat} {e : BusEnv} (hk : e.kind = .reference) {c : BusCall} {ev : BusEvent} {b : RefBus}
    (h : refCall n e.ref c = (ev, b)) : envCall n e c = (ev, { e with ref := b }) := by
  simp only [envCall, hk, h]

/-- The environment `e` answers the calls `cs` with the events `evs` and is `e'` after them, for every choice of free values. -/
inductive Answers : BusEnv → List BusCall → List BusEvent → BusEnv → Prop
  | nil (e : BusEnv) : Answers e [] [] e
  | cons {e e1 e' : BusEnv} {c : BusCall} {cs : List BusCall} {ev : BusEvent} {evs : List BusEvent}
      (hcall : ∀ n, envCall n e c = (ev, e1)) (hrest : Answers e1 cs evs e') : Answers e (c :: cs) (ev :: evs) e'

theorem Answers.single {e e' : BusEnv} {c : BusCall} {ev : BusEvent} (h : ∀ n, envCall n e c = (ev, e')) :
    Answers e [c] [ev] e' :=
  .cons h (.nil e')

theorem Answers.append {e e1 e' : BusEnv} {cs ds : List BusCall} {evs fvs : List BusEvent} (h : Answers e cs evs e1)
    (h' : Answers e1 ds fvs e') : Answers e (cs ++ ds) (evs ++ fvs) e' := by
  induction h with
  | nil _ => exact h'
  | cons hcall _ ih => exact .cons hcall (ih h')

theorem Answers.length_eq {e e' : BusEnv} {cs : List BusCall} {evs : List BusEvent} (h : Answers e cs evs e') :
    evs.length = cs.length := by
  induction h with
  | nil _ => rfl
  | cons _ _ ih => exact congrArg Nat.succ ih

/-- The last of the calls is answered by the environment as the others leave it. -/
theorem Answers.of_concat {e e' : BusEnv} {cs : List BusCall} {c : BusCall} {evs : List BusEvent}
    (h : Answers e (cs ++ [c]) evs e') :
    ∃ e1 fvs ev, evs = fvs ++ [ev] ∧ Answers e cs fvs e1 ∧ ∀ n, envCall n e1 c = (ev, e') := by
  induction cs generalizing e evs with
  | nil =>
    obtain _ | ⟨hcall, ⟨⟩⟩ := h
    exact ⟨e, [], _, rfl, .nil e, hcall⟩
  | cons d cs ih =>
    obtain _ | ⟨hcall, hrest⟩ := h
    obtain ⟨e1, fvs, ev, rfl, hinit, hlast⟩ := ih hrest
    exact ⟨e1, _ :: fvs, ev, rfl, .cons hcall hinit, hlast⟩

section
variable {t x : State} {op : SeqOp} {evs : List BusEvent} {c : BusCall} {ev : BusEvent} {e e' : BusEnv}

/-- R99: one step of a running command whose call is answered so. -/
theorem Running.step_env (h : Running t op evs x) (he : x.env = e)
    (hc : (frame t.params op t.latch)[evs.length]? = some c) (hanswer : ∀ n, envCall n e c = (ev, e')) :
    ∃ y, After t (evs ++ [ev]) y ∧ y.env = e' ∧
      ((ev = .avail false ∧ seqStep x = .next (raiseError .noData y)) ∨
        (ev ≠ .avail false ∧ seqStep x = .next (advance op evs.length y))) := by
  have hcall : envCall x.draws x.env c = (ev, e') := he ▸ hanswer x.draws
  have hev : (busCall c x).1 = ev := congrArg Prod.fst hcall
  have hafter : After t (evs ++ [ev]) (called c x) := hev ▸ h.after.call c
  have henv : (called c x).env = e' := (called_env c x).trans (congrArg Prod.snd hcall)
  have hstep : seqStep x = .next (afterCall op evs.length ev (busCall c x).2) := by
    rw [seqStep_run h.seq, h.after.params, h.after.latch, hc]
    exact congrArg (fun f => Host.Outcome.next (afterCall op evs.length f (busCall c x).2)) hev
  refine ⟨called c x, hafter, henv, ?_⟩
  by_cases hno : ev = .avail false
  · refine .inl ⟨hno, hstep.trans ?_⟩
    rw [called_of_noByte (by rw [hev, hno]; rfl), hno]
    rfl
  · refine .inr ⟨hno, hstep.trans ?_⟩
    rw [afterCall_eq_advance _ _ _ hno, called, hev]

/-- R99: a command goes on through calls that are answered, short of the frame's last. -/
theorem Running.answers {cs ds : List BusCall} {evs' : List BusEvent} (h : Running t op evs x)
    (ha : Answers e cs evs' e') (he : x.env = e) (hframe : (frame t.params op t.latch).drop evs.length = cs ++ ds)
    (hds : ds ≠ []) (hno : .avail false ∉ evs') : ∃ y, Running t op (evs ++ evs') y ∧ y.env = e' := by
  induction ha generalizing evs x with
  | nil e => exact ⟨x, by rwa [List.append_nil], he⟩
  | @cons e e1 e' c cs ev evs' hcall _ ih =>
    obtain ⟨hev, hno'⟩ : .avail false ≠ ev ∧ .avail false ∉ evs' := by simpa using hno
    have hc : (frame t.params op t.latch)[evs.length]? = some c := by
      have hhead := congrArg (·[0]?) hframe
      simpa using hhead
    have hlen := congrArg List.length hframe
    have hpos := List.length_pos_of_ne_nil hds
    rw [List.length_drop, List.length_append, List.length_cons] at hlen
    obtain ⟨y, hy, hyenv, ⟨hf, -⟩ | ⟨-, hstep⟩⟩ := h.step_env he hc hcall
    · exact absurd hf.symm hev
    · have hdrop : (frame t.params op t.latch).drop (evs ++ [ev]).length = cs ++ ds := by
        rw [List.length_append, List.length_singleton, ← List.drop_drop, hframe]
        rfl
      obtain ⟨z, hz, hzenv⟩ := ih (h.of_advance hy (by omega) hstep) hyenv hdrop hno'
      exact ⟨z, by rwa [List.append_assoc] at hz, hzenv⟩

/-- R99, R100: a command all of whose calls are answered, and no question with "no byte", completes. -/
theorem Running.completes (h : Running t op [] t) (ha : Answers t.env (frame t.params op t.latch) evs e')
    (hno : .avail false ∉ evs) (hne : frame t.params op t.latch ≠ []) :
    ∃ fvs x y, fvs.length + 1 = evs.length ∧ Running t op fvs x ∧ After t evs y ∧ y.env = e' ∧
      seqSteps evs.length t = .next (complete (results op y.rbuf) y) := by
  obtain ⟨cs, c, hframe⟩ := (List.eq_nil_or_concat' _).resolve_left hne
  obtain ⟨e1, fvs, ev, rfl, hinit, hcall⟩ := (hframe ▸ ha).of_concat
  obtain ⟨hnoinit, hev⟩ : .avail false ∉ fvs ∧ .avail false ≠ ev := by simpa using hno
  obtain ⟨x, hx, hxenv⟩ := h.answers hinit rfl hframe (List.cons_ne_nil c []) hnoinit
  rw [List.nil_append] at hx
  have hc : (frame t.params op t.latch)[fvs.length]? = some c := by
    rw [hframe, hinit.length_eq, List.getElem?_concat_length]
  have hlast : fvs.length + 1 = (frame t.params op t.latch).length := by
    rw [hframe, hinit.length_eq, List.length_append, List.length_singleton]
  have hlen : (fvs ++ [ev]).length = fvs.length + 1 := List.length_append
  obtain ⟨y, hy, hyenv, ⟨hf, -⟩ | ⟨-, hstep⟩⟩ := hx.step_env hxenv hc hcall
  · exact absurd hf.symm hev
  · rw [advance, hy.params, hy.latch, if_pos hlast] at hstep
    exact ⟨fvs, x, y, hlen.symm, hx, hy, hyenv, hlen ▸ hx.steps_succ hstep⟩

/-- R107: a command that is told no byte is available ends there. -/
theorem Running.endsWithoutByte (h : Running t op evs x) (he : x.env = e)
    (hc : (frame t.params op t.latch)[evs.length]? = some .avail) (hcall : ∀ n, envCall n e .avail = (.avail false, e')) :
    ∃ y, After t (evs ++ [.avail false]) y ∧ y.env = e' ∧ seqSteps (evs.length + 1) t = .next (raiseError .noData y) := by
  obtain ⟨y, hy, hyenv, ⟨-, hstep⟩ | ⟨hf, -⟩⟩ := h.step_env he hc hcall
  · exact ⟨y, hy, hyenv, h.steps_succ hstep⟩
  · exact absurd rfl hf

end

/-! ### Rounds of one question and one read -/

/-- R83, R92: `n` rounds of a frame. -/
def roundCalls : Nat → List BusCall
  | 0 => []
  | n + 1 => [.avail, .read] ++ roundCalls n

/-- R83, R92: the events of rounds that brought the bytes `bs`. -/
def roundEvents (bs : List Byte) : List BusEvent := bs.flatMap fun v => [.avail true, .rd v]

theorem length_roundEvents (bs : List Byte) : (roundEvents bs).length = 2 * bs.length := by
  induction bs with
  | nil => rfl
  | cons b bs ih =>
    change (roundEvents bs).length + 2 = 2 * (bs.length + 1)
    omega

theorem availFalse_not_mem_roundEvents (bs : List Byte) : .avail false ∉ roundEvents bs := by
  simp [roundEvents]

theorem bytesRead_append (evs fvs : List BusEvent) : bytesRead (evs ++ fvs) = bytesRead evs ++ bytesRead fvs :=
  List.filterMap_append

theorem bytesRead_roundEvents (bs : List Byte) : bytesRead (roundEvents bs) = bs := by
  induction bs with
  | nil => rfl
  | cons b bs ih => exact congrArg (b :: ·) ih

/-- The environment has the bytes `bs` to give, and is `e'` after them. -/
def Gives (e : BusEnv) (bs : List Byte) (e' : BusEnv) : Prop := Answers e (roundCalls bs.length) (roundEvents bs) e'

/-- The environment has no byte to give, and is `e'` after it has said so. -/
def Dry (e e' : BusEnv) : Prop := ∀ n, envCall n e .avail = (.avail false, e')

/-- R13: listed answers that are all "yes" give the listed bytes. -/
theorem gives_free {e : BusEnv} (hk : e.kind = .free) {bs : List Byte} {avails : List Bool} {bytes : List Byte}
    (ha : e.avails = List.replicate bs.length true ++ avails) (hb : e.bytes = bs ++ bytes) :
    Gives e bs { e with avails := avails, bytes := bytes } := by
  obtain ⟨kind, as, cs, ref⟩ := e
  cases hk
  cases ha
  cases hb
  induction bs with
  | nil => exact .nil _
  | cons b bs ih => exact .cons (fun _ => rfl) (.cons (fun _ => rfl) ih)

/-- R52: so do the queued bytes of the reference bus. -/
theorem gives_reference {e : BusEnv} (hk : e.kind = .reference) {bs q : List Byte} (hq : e.ref.queue = bs ++ q) :
    Gives e bs { e with ref := { e.ref with queue := q } } := by
  induction bs generalizing e with
  | nil =>
    obtain ⟨kind, as, cs, openTxn, queue, rtc, ee⟩ := e
    cases hq
    exact .nil _
  | cons b bs ih =>
    have havail (n : Nat) : refCall n e.ref .avail = (.avail true, e.ref) := by
      rw [refCall, hq]
      rfl
    have hread (n : Nat) : refCall n e.ref .read = (.rd b, { e.ref with queue := bs ++ q }) := by
      rw [refCall, hq]
      rfl
    exact .cons (fun n => envCall_reference hk (havail n)) (.cons (fun n => envCall_reference hk (hread n))
      (ih (e := { e with ref := { e.ref with queue := bs ++ q } }) hk rfl))

theorem dry_free {e : BusEnv} (hk : e.kind = .free) {avails : List Bool} (ha : e.avails = false :: avails) :
    Dry e { e with avails := avails } := by
  intro n
  simp only [envCall_free n hk, freeCall, ha]

theorem dry_reference {e : BusEnv} (hk : e.kind = .reference) (hq : e.ref.queue = []) : Dry e e := by
  intro n
  refine envCall_reference hk ?_
  rw [refCall, hq]
  rfl

/-- R13: the free environment makes the events of calls without an answer and stays as it is. -/
theorem answers_free {e : BusEnv} (hk : e.kind = .free) {cs : List BusCall} {evs : List BusEvent}
    (h : cs.map fixedEvent = evs.map some) : Answers e cs evs e := by
  induction cs generalizing evs with
  | nil =>
    obtain rfl : evs = [] := by simpa using h.symm
    exact .nil e
  | cons c cs ih =>
    cases evs with
    | nil => simp at h
    | cons ev evs =>
      obtain ⟨hev, hevs⟩ : fixedEvent c = some ev ∧ cs.map fixedEvent = evs.map some := by simpa using h
      refine .cons (fun n => ?_) (ih hevs)
      rw [envCall_free n hk]
      cases c <;> cases hev <;> rfl

theorem roundCalls_add (m n : Nat) : roundCalls (m + n) = roundCalls m ++ roundCalls n := by
  induction m with
  | zero => rw [Nat.zero_add]; rfl
  | succ m ih =>
    rw [Nat.succ_add]
    exact congrArg ([.avail, .read] ++ ·) ih

section
variable {t : State} {op : SeqOp} {hdr : List BusCall} {hevs : List BusEvent} {n : Nat} {bs : List Byte} {e1 e2 e3 : BusEnv}
  (ht : Running t op [] t) (hframe : frame t.params op t.latch = hdr ++ roundCalls n) (hhdr : Answers t.env hdr hevs e1)
  (hno : .avail false ∉ hevs) (hgives : Gives e1 bs e2)
include ht hframe hhdr hno hgives

/-- R83, R92: a read command for which the environment has all bytes completes with them in RBUF. -/
theorem read_completes (hbytes : bytesRead hevs = []) (hbs : bs.length = n) (hn : n ≤ 7) (hpos : hdr ≠ []) :
    ∃ fvs x y, fvs.length + 1 = hdr.length + 2 * n ∧ Running t op fvs x ∧ After t (hevs ++ roundEvents bs) y ∧ y.env = e2 ∧
      (listOfBytes7 y.rbuf).take n = bs ∧ seqSteps (hdr.length + 2 * n) t = .next (complete (results op y.rbuf) y) := by
  have hanswers : Answers t.env (frame t.params op t.latch) (hevs ++ roundEvents bs) e2 := by
    rw [hframe, ← hbs]
    exact hhdr.append hgives
  have hlen : (hevs ++ roundEvents bs).length = hdr.length + 2 * n := by
    rw [List.length_append, length_roundEvents, hhdr.length_eq, hbs]
  obtain ⟨fvs, x, y, hfvs, hx, hy, hyenv, hsteps⟩ := ht.completes hanswers
    (List.not_mem_append hno (availFalse_not_mem_roundEvents bs)) (by simp [hframe, hpos])
  have hread : bytesRead (hevs ++ roundEvents bs) = bs := by rw [bytesRead_append, hbytes, bytesRead_roundEvents, List.nil_append]
  have hrbuf := hy.rbuf
  rw [hread, hbs] at hrbuf
  exact ⟨fvs, x, y, hfvs.trans hlen, hx, hy, hyenv, hrbuf hn, hlen ▸ hsteps⟩

/-- R107: a read command for which the environment has fewer bytes ends after them with NODATA. -/
theorem read_endsWithoutByte (hbs : bs.length < n) (hdry : Dry e2 e3) :
    ∃ y, After t (hevs ++ roundEvents bs ++ [.avail false]) y ∧ y.env = e3 ∧
      seqSteps (hdr.length + 2 * bs.length + 1) t = .next (raiseError .noData y) := by
  obtain ⟨k, rfl⟩ := Nat.exists_eq_add_of_lt hbs
  have hframe' : frame t.params op t.latch = (hdr ++ roundCalls bs.length) ++ .avail :: .read :: roundCalls k := by
    rw [hframe, Nat.add_assoc, roundCalls_add, List.append_assoc]
    rfl
  have hlen : (hevs ++ roundEvents bs).length = hdr.length + 2 * bs.length := by
    rw [List.length_append, length_roundEvents, hhdr.length_eq]
  have hanswers : Answers t.env (hdr ++ roundCalls bs.length) (hevs ++ roundEvents bs) e2 := hhdr.append hgives
  obtain ⟨x, hx, hxenv⟩ := ht.answers hanswers rfl hframe' (List.cons_ne_nil _ _)
    (List.not_mem_append hno (availFalse_not_mem_roundEvents bs))
  rw [List.nil_append] at hx
  have hc : (frame t.params op t.latch)[(hevs ++ roundEvents bs).length]? = some .avail := by
    rw [hframe', hanswers.length_eq, List.getElem?_append_right le_rfl, Nat.sub_self]
    rfl
  obtain ⟨y, hy, hyenv, hsteps⟩ := hx.endsWithoutByte hxenv hc hdry
  exact ⟨y, hy, hyenv, hlen ▸ hsteps⟩

end

end Sys2Proof.Machine
end

section
/-! RTCR on known answers (30_encoding.md R64, 41_rtc_register_mux.md R83). -/

namespace Sys2Proof.Machine

/-- R64: the calls of RTCR before its rounds. -/
def rtcrHeader : List BusCall := [.beginTxn rtcId, .write rtcBase, .endTxn, .request rtcId rtcNreg]

theorem listOfBytes7_injective {b c : Bytes7} (h : listOfBytes7 b = listOfBytes7 c) : b = c := by
  cases b
  cases c
  simpa [listOfBytes7] using h

section
variable {s : State} {e1 e2 e3 : BusEnv} (hhdr : Answers s.env rtcrHeader (rtcrEvents []) e1)
include hhdr

/-- R83: RTCR with seven bytes to come completes in 18 steps. -/
theorem rtcr_completes {b : Bytes7} (hgives : Gives e1 (listOfBytes7 b) e2) :
    ∃ fvs x y, fvs.length = 17 ∧ Running (startedRtcr s) .rtcr fvs x ∧
      After (startedRtcr s) (rtcrEvents (listOfBytes7 b)) y ∧ y.env = e2 ∧
      seqSteps 18 (startedRtcr s) = .next (complete (rtcrResults b) y) := by
  obtain ⟨fvs, x, y, hfvs, hx, hy, hyenv, hrbuf, hsteps⟩ := read_completes (n := 7)
    (running_nil (t := startedRtcr s) (op := .rtcr) rfl rfl rfl) rfl hhdr (by decide) hgives rfl rfl le_rfl (by decide)
  obtain rfl : y.rbuf = b := listOfBytes7_injective hrbuf
  exact ⟨fvs, x, y, Nat.succ.inj hfvs, hx, hy, hyenv, hsteps⟩

/-- R83, R107: RTCR with fewer bytes to come ends after them with NODATA. -/
theorem rtcr_noData {bs : List Byte} (hgives : Gives e1 bs e2) (hbs : bs.length < 7) (hdry : Dry e2 e3) :
    ∃ y, After (startedRtcr s) (rtcrEvents bs ++ [.avail false]) y ∧ y.env = e3 ∧
      seqSteps (4 + 2 * bs.length + 1) (startedRtcr s) = .next (raiseError .noData y) :=
  read_endsWithoutByte (running_nil (t := startedRtcr s) (op := .rtcr) rfl rfl rfl) rfl hhdr (by decide) hgives hbs hdry

end

/-- R83: the registers after RTCR has read the bytes `b`. -/
theorem regs_rtcr_completed {s y : State} {evs : List BusEvent} (hy : After (startedRtcr s) evs y) (b : Bytes7) :
    (complete (rtcrResults b) y).regs = regSetAll s.regs (timeWrites (unpack b)) :=
  congrArg (regSetAll · (timeWrites (unpack b))) hy.regs

/-- Settles O27: the listed answers are the rounds of the frame, seven of them or as many as come before the first "no". -/
theorem rtcrFillsTheRecordOrReportsNoData : Obligations.RtcrFillsTheRecordOrReportsNoData := by
  refine ⟨fun s b avails bytes hs hk ha hb => ?_, fun s i b avails bytes hi hlen hs hk ha hb => ?_, toNat_dec, by decide,
    by decide, by decide, by decide⟩
  · have hhdr : Answers s.env rtcrHeader (rtcrEvents []) s.env := answers_free hk rfl
    obtain ⟨fvs, x, y, hfvs, hx, hy, -, hsteps⟩ := rtcr_completes hhdr (gives_free hk ha hb)
    have hbusy := hx.busyUntil
    have htrace := hy.trace
    have hregs := regs_rtcr_completed hy b
    rw [hfvs] at hbusy
    rw [append_rtcrEvents] at htrace
    have hrecord : timeRecord (complete (rtcrResults b) y).regs = unpack b := by rw [hregs, timeRecord_timeWrites]
    exact ⟨startedRtcr s, complete (rtcrResults b) y, execRtcr_started hs, rfl, hbusy, hsteps, hy.status_complete _, rfl,
      hy.params, hy.program, hy.reads, hrecord.trans (unpack_eq b), by rw [hrecord, hregs], htrace⟩
  · subst hlen
    have hhdr : Answers s.env rtcrHeader (rtcrEvents []) s.env := answers_free hk rfl
    have hdry := dry_free (e := { s.env with avails := false :: avails, bytes := bytes }) hk rfl
    obtain ⟨y, hy, -, hsteps⟩ := rtcr_noData hhdr (gives_free hk ha hb) hi hdry
    have htrace := hy.trace
    rw [← List.append_assoc, append_rtcrEvents] at htrace
    exact ⟨startedRtcr s, raiseError .noData y, execRtcr_started hs, hsteps, hy.status_noData, rfl, hy.regs, hy.params,
      hy.program, hy.reads, htrace⟩

end Sys2Proof.Machine
end

section
/-! EER (30_encoding.md R68, 42_eeprom_framer.md R92): the accepting write, the request, and one round. -/

namespace Sys2Proof.Machine

/-- R32, R92, R96: the state of an accepted EER. -/
def startedEer (s : State) : State :=
  { s with status := busyStatus, seq := .run .eer 0, latch := ⟨.zero, eeAddress s.regs, 0⟩, rbuf := .zero, rcnt := 0 }

/-- R92: an EER that passes its check, or is not checked, is started. -/
theorem execEer_started {s : State} (h : Ready s) (hr : s.params.checkRange = true → eeInRange (eeAddress s.regs) = true) :
    exec .eer s = .next (startedEer s) := by
  have hexec := execEer_idle h.notBusy
  rwa [if_neg (not_rangeError_iff.2 hr)] at hexec

theorem running_startedEer (s : State) : Running (startedEer s) .eer [] (startedEer s) := running_nil rfl rfl rfl

/-- R68: the calls of EER before its round, as the operand registers give them. -/
def eerHeader (f : RegFile) : List BusCall :=
  [.beginTxn eeId, .write f.eeAddrH.val, .write f.eeAddrL.val, .endTxn, .request eeId 1]

/-- R68: the events of these calls. -/
def eerEvents (f : RegFile) : List BusEvent :=
  [.beginTxn eeId, .wr f.eeAddrH.val, .wr f.eeAddrL.val, .endTxn, .req eeId 1]

theorem availFalse_not_mem_eerEvents (f : RegFile) : .avail false ∉ eerEvents f := by
  simp [eerEvents]

/-- R66, R68: the frame of an accepted EER. -/
theorem frame_startedEer (s : State) :
    frame (startedEer s).params .eer (startedEer s).latch = eerHeader s.regs ++ roundCalls 1 := by
  have hframe : frame (startedEer s).params .eer (startedEer s).latch = eerFrame (eeAddress s.regs) := rfl
  rw [hframe, eerFrame, addrHi_eeAddress, addrLo_eeAddress]
  rfl

section
variable {s : State} {e1 e2 e3 : BusEnv} (hhdr : Answers s.env (eerHeader s.regs) (eerEvents s.regs) e1)
include hhdr

/-- R92: EER with a byte to come completes in seven steps. -/
theorem eer_completes {b : Byte} (hgives : Gives e1 [b] e2) :
    ∃ fvs x y, fvs.length = 6 ∧ Running (startedEer s) .eer fvs x ∧
      After (startedEer s) (eerEvents s.regs ++ [.avail true, .rd b]) y ∧ y.env = e2 ∧
      seqSteps 7 (startedEer s) = .next (complete [(.eeData, b)] y) := by
  obtain ⟨fvs, x, y, hfvs, hx, hy, hyenv, hrbuf, hsteps⟩ := read_completes (n := 1) (running_startedEer s)
    (frame_startedEer s) hhdr (availFalse_not_mem_eerEvents _) hgives rfl rfl (by decide) (List.cons_ne_nil _ _)
  obtain rfl : y.rbuf.b0 = b := List.head_eq_of_cons_eq hrbuf
  exact ⟨fvs, x, y, Nat.succ.inj hfvs, hx, hy, hyenv, hsteps⟩

/-- R92, R107: EER with no byte to come ends after six steps with NODATA. -/
theorem eer_noData (hdry : Dry e1 e3) :
    ∃ y, After (startedEer s) (eerEvents s.regs ++ [.avail false]) y ∧ y.env = e3 ∧
      seqSteps 6 (startedEer s) = .next (raiseError .noData y) :=
  read_endsWithoutByte (n := 1) (bs := []) (running_startedEer s) (frame_startedEer s) hhdr (availFalse_not_mem_eerEvents _)
    (.nil e1) (by decide) hdry

end

/-- R92: in any environment EER ends for want of a byte, or its last step completes it with the byte read. -/
theorem eer_run (s : State) :
    (∃ y, After (startedEer s) (eerEvents s.regs ++ [.avail false]) y ∧
      seqSteps 6 (startedEer s) = .next (raiseError .noData y)) ∨
    ∃ b y, After (startedEer s) (eerEvents s.regs ++ [.avail true, .rd b]) y ∧
      seqSteps 7 (startedEer s) = .next (complete [(.eeData, b)] y) := by
  have hframe := frame_startedEer s
  obtain ⟨x, hx⟩ := exists_running_of_fixed (evs := eerEvents s.regs) (running_startedEer s) ⟨[none, none], by rw [hframe]; rfl⟩
    (by rw [hframe]; exact (by decide : 5 < 7))
  obtain ⟨y, hy, hstep⟩ | ⟨y, hy⟩ := hx.avail (by rw [hframe]; rfl) (by rw [hframe]; exact (by decide : 6 < 7))
  · exact .inl ⟨y, hy, hx.steps_succ hstep⟩
  · obtain ⟨ev, z, ⟨b, rfl⟩, hz, hstep⟩ := hy.last (c := .read) (by rw [hframe]; rfl) (by decide) (by rw [hframe]; rfl)
    rw [List.append_assoc] at hz
    obtain rfl : z.rbuf.b0 = b := List.head_eq_of_cons_eq (hz.rbuf (by decide : 1 ≤ 7))
    exact .inr ⟨_, z, hz, hy.steps_succ hstep⟩

/-- R92: the registers after EER has read the byte `b`. -/
theorem regs_eer_completed {s y : State} {evs : List BusEvent} (hy : After (startedEer s) evs y) (b : Byte) :
    (complete [(.eeData, b)] y).regs = regSet s.regs .eeData b :=
  congrArg (regSet · .eeData b) hy.regs

/-- Settles O36: the accepting write checks and latches the address, and the one question of the frame decides how it ends. -/
theorem eerReadsOneByteOrReportsNoData : Obligations.EerReadsOneByteOrReportsNoData := by
  refine ⟨fun s => execEer_rangeError, fun s b avails bytes hs hr hk ha hb => ?_, fun s avails hs hr hk ha => ?_,
    fun s hs hr => ?_, eeInRange_iff, toNat_eeAddress, by decide, by decide, by decide, by decide, by decide⟩
  · have hhdr : Answers s.env (eerHeader s.regs) (eerEvents s.regs) s.env := answers_free hk rfl
    obtain ⟨fvs, x, y, hfvs, hx, hy, -, hsteps⟩ := eer_completes hhdr (gives_free (bs := [b]) hk ha hb)
    have hbusy := hx.busyUntil
    rw [hfvs] at hbusy
    exact ⟨startedEer s, complete [(.eeData, b)] y, execEer_started hs hr, rfl, hbusy, hsteps, hy.status_complete _, rfl,
      regs_eer_completed hy b, hy.params, hy.program, hy.reads, hy.trace⟩
  · have hhdr : Answers s.env (eerHeader s.regs) (eerEvents s.regs) s.env := answers_free hk rfl
    obtain ⟨y, hy, -, hsteps⟩ := eer_noData hhdr (dry_free hk ha)
    exact ⟨startedEer s, raiseError .noData y, execEer_started hs hr, hsteps, hy.status_noData, rfl, hy.regs, hy.trace⟩
  · obtain ⟨y, hy, hsteps⟩ | ⟨b, y, hy, hsteps⟩ := eer_run s
    · exact ⟨startedEer s, raiseError .noData y, execEer_started hs hr,
        .inl ⟨hsteps, hy.status_noData, rfl, hy.regs, hy.trace⟩⟩
    · exact ⟨startedEer s, complete [(.eeData, b)] y, execEer_started hs hr,
        .inr ⟨b, hsteps, hy.status_complete _, rfl, regs_eer_completed hy b, hy.trace⟩⟩

end Sys2Proof.Machine
end

section
/-! The reference bus (20_memory.md R52): a whole transaction and a request, as the calls of a frame make them. -/

namespace Sys2Proof.Machine

/-- R52: the bytes of an open transaction are collected. -/
theorem answers_writes {e : BusEnv} (hk : e.kind = .reference) {id : DeviceId} {as : List Byte}
    (ho : e.ref.openTxn = some (id, as)) (bs : List Byte) :
    Answers e (bs.map .write) (bs.map .wr) { e with ref := { e.ref with openTxn := some (id, as ++ bs) } } := by
  induction bs generalizing e as with
  | nil =>
    have hkeep : { e with ref := { e.ref with openTxn := some (id, as ++ []) } } = e := by
      rw [List.append_nil, ← ho]
    rw [hkeep]
    exact .nil e
  | cons b bs ih =>
    have hwrite (n : Nat) : refCall n e.ref (.write b) = (.wr b, { e.ref with openTxn := some (id, as ++ [b]) }) := by
      simp only [refCall, ho]
    have hrest := ih (e := { e with ref := { e.ref with openTxn := some (id, as ++ [b]) } }) hk rfl
    rw [List.append_assoc] at hrest
    exact .cons (fun n => envCall_reference hk (hwrite n)) hrest

/-- R52: with none open, a transaction is begun, filled and delivered. -/
theorem answers_transaction {e : BusEnv} (hk : e.kind = .reference) (ho : e.ref.openTxn = none) (id : DeviceId)
    (bs : List Byte) {b' : RefBus} (hd : ∀ n, deliver n { e.ref with openTxn := some (id, bs) } id bs = b') :
    Answers e (.beginTxn id :: (bs.map .write ++ [.endTxn])) (.beginTxn id :: (bs.map .wr ++ [.endTxn])) { e with ref := b' } := by
  have hbegin (n : Nat) : refCall n e.ref (.beginTxn id) = (.beginTxn id, { e.ref with openTxn := some (id, []) }) := by
    simp only [refCall, beginTransaction, ho]
  have hend (n : Nat) : refCall n { e.ref with openTxn := some (id, bs) } .endTxn = (.endTxn, b') := by
    simp only [refCall, hd]
  exact .cons (fun n => envCall_reference hk (hbegin n))
    ((answers_writes (e := { e with ref := { e.ref with openTxn := some (id, []) } }) hk rfl bs).append
      (.single fun n => envCall_reference (e := { e with ref := { e.ref with openTxn := some (id, bs) } }) hk (hend n)))

/-- R52: a request. -/
theorem answers_request {e : BusEnv} (hk : e.kind = .reference) (id : DeviceId) (cnt : Nat) {b' : RefBus}
    (h : ∀ n, request n e.ref id cnt = b') : Answers e [.request id cnt] [.req id cnt] { e with ref := b' } :=
  .single fun n => envCall_reference hk (by rw [refCall, h])

/-- R51: SETTLE completes the write that awaits it. -/
theorem answers_settle {e : BusEnv} (hk : e.kind = .reference) :
    Answers e [.settle] [.settle] { e with ref := { e.ref with ee := eeSettle e.ref.ee } } :=
  .single fun _ => envCall_reference hk rfl

theorem deliver_rtc (n : Nat) (b : RefBus) (bs : List Byte) :
    deliver n b rtcId bs = { b with openTxn := none, rtc := rtcTransaction b.rtc bs } := if_pos rfl

theorem eeId_ne_rtcId : eeId ≠ rtcId := by decide

theorem deliver_ee (n : Nat) (b : RefBus) (bs : List Byte) :
    deliver n b eeId bs = { b with openTxn := none, ee := eeTransaction n b.ee bs } := by
  rw [deliver, if_neg eeId_ne_rtcId, if_pos rfl]

theorem request_rtc (n : Nat) (b : RefBus) (cnt : Nat) :
    request n b rtcId cnt = { b with queue := (rtcRequest b.rtc cnt).1, rtc := (rtcRequest b.rtc cnt).2 } := if_pos rfl

theorem request_ee (n : Nat) (b : RefBus) (cnt : Nat) :
    request n b eeId cnt = { b with queue := (eeRequest n b.ee cnt).1, ee := (eeRequest n b.ee cnt).2 } := by
  rw [request, if_neg eeId_ne_rtcId, if_pos rfl]

/-- R52: a device queues no more than it is asked for. -/
theorem queued_le (v : Variant) (n : Nat) : queued v n ≤ n := by
  cases v with
  | normal => exact le_rfl
  | short k => exact Nat.min_le_right k n
  | absent => exact Nat.zero_le n

theorem ne_absent_of_queued_pos {v : Variant} {n : Nat} (h : 0 < queued v n) : v ≠ .absent := by
  rintro rfl
  cases h

end Sys2Proof.Machine
end

section
/-! RTCR and RTCW on the reference bus (20_memory.md R50, 41_rtc_register_mux.md R82 to R84). -/

namespace Sys2Proof.Machine

/-- R7, R50: the seven registers that RTCR asks for. -/
def firstSeven (m : Memory) : Bytes7 :=
  ⟨readByte m 0, readByte m 1, readByte m 2, readByte m 3, readByte m 4, readByte m 5, readByte m 6⟩

theorem firstSeven_eq {m : Memory} {b : Bytes7} (h : ∀ i < 7, some (readByte m i) = (listOfBytes7 b)[i]?) : firstSeven m = b := by
  obtain ⟨b0, b1, b2, b3, b4, b5, b6⟩ := b
  rw [firstSeven, Bytes7.mk.injEq]
  exact ⟨Option.some.inj (h 0 (by decide)), Option.some.inj (h 1 (by decide)), Option.some.inj (h 2 (by decide)),
    Option.some.inj (h 3 (by decide)), Option.some.inj (h 4 (by decide)), Option.some.inj (h 5 (by decide)),
    Option.some.inj (h 6 (by decide))⟩

/-- R50: a transaction of a pointer alone stores nothing. -/
theorem rtcTransaction_pointer (r : RefRtc) (p : Byte) :
    (rtcTransaction r [p]).mem = r.mem ∧ (rtcTransaction r [p]).variant = r.variant ∧
      (r.variant ≠ .absent → (rtcTransaction r [p]).ptr = p) := by
  unfold rtcTransaction
  split
  · next h => exact ⟨rfl, rfl, fun hne => absurd h hne⟩
  · exact ⟨rfl, rfl, fun _ => rfl⟩
  · exact ⟨rfl, rfl, fun _ => rfl⟩

/-- R50: the bytes that the RTC queues for RTCR. -/
def rtcrQueue (r : RefRtc) : List Byte := (rtcRequest (rtcTransaction r [rtcBase]) rtcNreg).1

theorem length_rtcrQueue (r : RefRtc) : (rtcrQueue r).length = queued r.variant 7 := by
  rw [rtcrQueue, rtcRequest_eq, length_readBytes, (rtcTransaction_pointer r rtcBase).2.1]
  rfl

/-- R50: an RTC that queues all seven bytes queues registers 0 to 6. -/
theorem rtcrQueue_eq {r : RefRtc} (h : queued r.variant 7 = 7) : rtcrQueue r = listOfBytes7 (firstSeven r.mem) := by
  obtain ⟨hmem, hvariant, hptr⟩ := rtcTransaction_pointer r rtcBase
  have hall : queued (rtcTransaction r [rtcBase]).variant rtcNreg = 7 := hvariant ▸ h
  rw [rtcrQueue, rtcRequest_eq, hall, hmem, hptr (ne_absent_of_queued_pos (h ▸ (by decide : 0 < 7)))]
  rfl

/-- R83: the reference bus after RTCR's request. -/
def rtcrRequested (b : RefBus) : RefBus :=
  { b with openTxn := none, queue := rtcrQueue b.rtc, rtc := (rtcRequest (rtcTransaction b.rtc [rtcBase]) rtcNreg).2 }

theorem rtcrRequested_rtc_mem (b : RefBus) : (rtcrRequested b).rtc.mem = b.rtc.mem := (rtcTransaction_pointer b.rtc rtcBase).1

theorem answers_rtcrHeader {e : BusEnv} (hk : e.kind = .reference) (ho : e.ref.openTxn = none) :
    Answers e rtcrHeader (rtcrEvents []) { e with ref := rtcrRequested e.ref } :=
  (answers_transaction hk ho rtcId [rtcBase] fun n => deliver_rtc n _ _).append
    (answers_request (e := { e with ref := { e.ref with openTxn := none, rtc := rtcTransaction e.ref.rtc [rtcBase] } }) hk
      rtcId rtcNreg fun n => request_rtc n _ _)

section
variable {s : State} (hk : s.env.kind = .reference) (ho : s.env.ref.openTxn = none)
include hk ho

/-- R83: RTCR from an RTC that queues seven bytes. -/
theorem rtcr_reference_completes (hq : queued s.env.ref.rtc.variant 7 = 7) :
    ∃ u, seqSteps 18 (startedRtcr s) = .next u ∧ u.status = doneStatus ∧
      u.regs = regSetAll s.regs (timeWrites (unpack (firstSeven s.env.ref.rtc.mem))) ∧
      u.env.ref.rtc.mem = s.env.ref.rtc.mem ∧ u.env.ref.ee = s.env.ref.ee := by
  have hgives := gives_reference (e := { s.env with ref := rtcrRequested s.env.ref }) hk (q := [])
    ((rtcrQueue_eq hq).trans (List.append_nil _).symm)
  obtain ⟨fvs, x, y, -, -, hy, hyenv, hsteps⟩ := rtcr_completes (answers_rtcrHeader hk ho) hgives
  refine ⟨_, hsteps, hy.status_complete _, regs_rtcr_completed hy _, ?_, ?_⟩
  · rw [complete_env, hyenv]
    exact rtcrRequested_rtc_mem _
  · rw [complete_env, hyenv]
    rfl

/-- R83, R107: RTCR from an RTC that queues fewer. -/
theorem rtcr_reference_noData (hq : queued s.env.ref.rtc.variant 7 < 7) :
    ∃ u, seqSteps (4 + 2 * queued s.env.ref.rtc.variant 7 + 1) (startedRtcr s) = .next u ∧ u.status = noDataStatus ∧
      u.regs = s.regs ∧ u.env.ref.rtc.mem = s.env.ref.rtc.mem ∧ u.env.ref.ee = s.env.ref.ee := by
  have hgives := gives_reference (e := { s.env with ref := rtcrRequested s.env.ref }) hk (q := []) (List.append_nil _).symm
  have hlen : (rtcrRequested s.env.ref).queue.length = queued s.env.ref.rtc.variant 7 := length_rtcrQueue _
  have hdry := dry_reference (e := { s.env with ref := { rtcrRequested s.env.ref with queue := [] } }) hk rfl
  obtain ⟨y, hy, hyenv, hsteps⟩ := rtcr_noData (answers_rtcrHeader hk ho) hgives (hlen ▸ hq) hdry
  refine ⟨_, hlen ▸ hsteps, hy.status_noData, hy.regs, ?_, ?_⟩
  · rw [raiseError_env, hyenv]
    exact rtcrRequested_rtc_mem _
  · rw [raiseError_env, hyenv]
    rfl

/-- R63, R82: RTCW on the reference bus writes its packed record to the RTC from register 0 on. -/
theorem rtcw_reference_completes : ∃ u, seqSteps 10 (startedRtcw s) = .next u ∧ Ready u ∧ u.regs = s.regs ∧
    u.env = { s.env with ref := { s.env.ref with
      openTxn := none
      rtc := rtcTransaction s.env.ref.rtc (rtcBase :: listOfBytes7 (pack s.params (timeRecord s.regs))) } } := by
  have hanswers := answers_transaction hk ho rtcId (rtcBase :: listOfBytes7 (pack s.params (timeRecord s.regs)))
    fun n => deliver_rtc n _ _
  obtain ⟨fvs, x, y, -, -, hy, hyenv, hsteps⟩ := (running_nil (t := startedRtcw s) (op := .rtcw) rfl rfl rfl).completes hanswers
    (by simp) (List.cons_ne_nil _ _)
  have hdone := hy.status_complete (results .rtcw y.rbuf)
  exact ⟨_, hsteps, ⟨by rw [hdone]; rfl, rfl⟩, hy.regs, hyenv⟩

end

/-- R50, R82: the RTC's registers after RTCW's transaction. -/
theorem readByte_rtcw_transaction {r : RefRtc} (hv : r.variant = .normal) (hwf : r.mem.wf = true) (b : Bytes7) :
    (∀ i < 7, some (readByte (rtcTransaction r (rtcBase :: listOfBytes7 b)).mem i) = (listOfBytes7 b)[i]?) ∧
      ∀ a, 7 ≤ a → readByte (rtcTransaction r (rtcBase :: listOfBytes7 b)).mem a = readByte r.mem a := by
  obtain ⟨hsame, hother, -⟩ := referenceRtcAutoIncrements r rtcBase (listOfBytes7 b) hv hwf (by decide : 7 ≤ 256)
  have hbase (i : Nat) (hi : i < 7) : (rtcBase.toNat + i) % 256 = i := by
    change (0 + i) % 256 = i
    omega
  refine ⟨fun i hi => ?_, fun a ha => hother a fun i hi => ?_⟩
  · rw [← hsame i hi, hbase i hi]
  · have hi7 : i < 7 := hi
    rw [hbase i hi7]
    omega

/-- Settles O33: RTCW leaves the packed record in registers 0 to 6, RTCR reads these, and unpacking inverts packing. -/
theorem rtcWriteThenReadReturnsTheRecord : Obligations.RtcWriteThenReadReturnsTheRecord := by
  intro s hs hk ho hv hwf hr
  obtain ⟨u, hu, hready, hregs, henv⟩ := rtcw_reference_completes hk ho
  obtain ⟨hsame, hother⟩ := readByte_rtcw_transaction hv hwf (pack s.params (timeRecord s.regs))
  have hurtc : u.env.ref.rtc =
      rtcTransaction s.env.ref.rtc (rtcBase :: listOfBytes7 (pack s.params (timeRecord s.regs))) := by rw [henv]
  have hvariant : u.env.ref.rtc.variant = .normal := by
    rw [hurtc, rtcTransaction_normal hv]
    exact hv
  obtain ⟨w, hw, hdone, hwregs, hmem, hee⟩ := rtcr_reference_completes (s := u) (by rw [henv]; exact hk) (by rw [henv])
    (by rw [hvariant]; rfl)
  rw [hurtc] at hwregs hmem
  refine ⟨startedRtcw s, u, startedRtcr u, w, execRtcw_started hs fun _ => hr, hu, execRtcr_started hready, hw, hdone, ?_,
    hmem ▸ hsame, hmem ▸ hother, hee.trans (by rw [henv])⟩
  rw [hwregs, timeRecord_timeWrites, firstSeven_eq hsame, unpack_pack _ hr]

end Sys2Proof.Machine
end

section
/-! EER and EEW on the reference bus (20_memory.md R51, 42_eeprom_framer.md R91, R92). -/

namespace Sys2Proof.Machine

/-- R51, R66: an in-range address is sent with bit 7 of its first byte clear, and arrives whole. -/
theorem eeCellOf_inRange {f : RegFile} (h : eeInRange (eeAddress f) = true) :
    f.eeAddrH.val.getLsbD 7 = false ∧ (eeCellOf f.eeAddrH.val f.eeAddrL.val).toNat = (eeAddress f).toNat := by
  have hbit : f.eeAddrH.val.getLsbD 7 = false := by
    rw [← addrHi_eeAddress, addrHi_bit7]
    exact (eeInRange_iff_bit15 _).1 h
  refine ⟨hbit, ?_⟩
  have hle := (eeInRange_iff _).1 h
  rw [toNat_eeAddress] at hle ⊢
  rw [eeCellOf, BitVec.toNat_append, ← Nat.shiftLeft_add_eq_or_of_lt f.eeAddrL.val.isLt, Nat.shiftLeft_eq,
    BitVec.extractLsb'_toNat, Nat.shiftRight_zero]
  omega

/-- R51: a transaction of an address with bit 15 clear sets the pointer of an EEPROM in no write cycle, if there is one. -/
def eeAddressed (e : RefEeprom) (h l : Byte) : RefEeprom :=
  match e.variant with
  | .absent => e
  | .normal | .short _ => { e with ptr := eeCellOf h l }

theorem eeTransaction_address {e : RefEeprom} (hc : e.writeCycle = none) {h : Byte} (h7 : h.getLsbD 7 = false) (l : Byte)
    (n : Nat) : eeTransaction n e [h, l] = eeAddressed e h l := by
  cases hv : e.variant <;> simp only [eeTransaction, eeAddressed, hv, hc, h7, Bool.false_eq_true, if_false]

/-- R51: that transaction stores nothing. -/
theorem eeAddressed_frame (e : RefEeprom) (h l : Byte) :
    (eeAddressed e h l).mem = e.mem ∧ (eeAddressed e h l).variant = e.variant ∧ (eeAddressed e h l).writeCycle = e.writeCycle ∧
      (e.variant ≠ .absent → (eeAddressed e h l).ptr = eeCellOf h l) := by
  unfold eeAddressed
  split
  · next hv => exact ⟨rfl, rfl, rfl, fun hne => absurd hv hne⟩
  · exact ⟨rfl, rfl, rfl, fun _ => rfl⟩
  · exact ⟨rfl, rfl, rfl, fun _ => rfl⟩

/-- R51: the transaction of EEW starts a write of its byte. -/
theorem eeTransaction_write {e : RefEeprom} (hv : e.variant = .normal) (hc : e.writeCycle = none) {h : Byte}
    (h7 : h.getLsbD 7 = false) (l d : Byte) (n : Nat) :
    eeTransaction n e [h, l, d] = { e with ptr := eeCellOf h l, writeCycle := some (eeCellOf h l, d) } := by
  simp only [eeTransaction, hv, hc, h7, Bool.false_eq_true, if_false]

/-- R92: the EEPROM once EER has addressed it. -/
def eerAddressed (f : RegFile) (e : RefEeprom) : RefEeprom := eeAddressed e f.eeAddrH.val f.eeAddrL.val

/-- R51, R92: the bytes that the EEPROM queues for EER. -/
def eerQueue (f : RegFile) (e : RefEeprom) : List Byte :=
  List.replicate (queued e.variant 1) (readByte e.mem (eerAddressed f e).ptr.toNat)

theorem eeRequest_eerAddressed (f : RegFile) {e : RefEeprom} (hc : e.writeCycle = none) (n : Nat) :
    eeRequest n (eerAddressed f e) 1 = (eerQueue f e, eerAddressed f e) := by
  obtain ⟨hmem, hvariant, hcycle, -⟩ := eeAddressed_frame e f.eeAddrH.val f.eeAddrL.val
  rw [eerQueue, ← hvariant, ← hmem]
  exact eeRequest_one (hcycle.trans hc) n

/-- R92: the reference bus after EER's request. -/
def eerRequested (f : RegFile) (b : RefBus) : RefBus :=
  { b with openTxn := none, queue := eerQueue f b.ee, ee := eerAddressed f b.ee }

theorem answers_eerHeader {e : BusEnv} (hk : e.kind = .reference) (ho : e.ref.openTxn = none)
    (hc : e.ref.ee.writeCycle = none) {f : RegFile} (hr : eeInRange (eeAddress f) = true) :
    Answers e (eerHeader f) (eerEvents f) { e with ref := eerRequested f e.ref } := by
  have hdeliver (n : Nat) : deliver n { e.ref with openTxn := some (eeId, [f.eeAddrH.val, f.eeAddrL.val]) } eeId
      [f.eeAddrH.val, f.eeAddrL.val] = { e.ref with openTxn := none, ee := eerAddressed f e.ref.ee } := by
    rw [deliver_ee, eeTransaction_address hc (eeCellOf_inRange hr).1]
    rfl
  have hrequest (n : Nat) : request n { e.ref with openTxn := none, ee := eerAddressed f e.ref.ee } eeId 1 =
      eerRequested f e.ref := by
    rw [request_ee]
    dsimp only
    rw [eeRequest_eerAddressed f hc]
    rfl
  exact (answers_transaction hk ho eeId _ hdeliver).append
    (answers_request (e := { e with ref := { e.ref with openTxn := none, ee := eerAddressed f e.ref.ee } }) hk eeId 1 hrequest)

section
variable {s : State} (hk : s.env.kind = .reference) (ho : s.env.ref.openTxn = none) (hc : s.env.ref.ee.writeCycle = none)
  (hr : eeInRange (eeAddress s.regs) = true)
include hk ho hc hr

/-- R92: EER from an EEPROM that queues the byte. -/
theorem eer_reference_completes (hq : queued s.env.ref.ee.variant 1 = 1) :
    ∃ u, seqSteps 7 (startedEer s) = .next u ∧ u.status = doneStatus ∧
      u.regs = regSet s.regs .eeData (readByte s.env.ref.ee.mem (eeAddress s.regs).toNat) ∧
      u.env.ref.ee.mem = s.env.ref.ee.mem ∧ u.env.ref.ee.writeCycle = none ∧ u.env.ref.rtc = s.env.ref.rtc := by
  obtain ⟨hmem, -, hcycle, hptr⟩ := eeAddressed_frame s.env.ref.ee s.regs.eeAddrH.val s.regs.eeAddrL.val
  have hqueue : eerQueue s.regs s.env.ref.ee = [readByte s.env.ref.ee.mem (eeAddress s.regs).toNat] := by
    rw [eerQueue, hq, eerAddressed, hptr (ne_absent_of_queued_pos (hq ▸ Nat.one_pos)), (eeCellOf_inRange hr).2]
    rfl
  have hgives := gives_reference (e := { s.env with ref := eerRequested s.regs s.env.ref }) hk (q := [])
    (hqueue.trans (List.append_nil _).symm)
  obtain ⟨fvs, x, y, -, -, hy, hyenv, hsteps⟩ := eer_completes (answers_eerHeader hk ho hc hr) hgives
  refine ⟨_, hsteps, hy.status_complete _, regs_eer_completed hy _, ?_, ?_, ?_⟩ <;> rw [complete_env, hyenv]
  · exact hmem
  · exact hcycle.trans hc
  · rfl

/-- R92, R107: EER from an EEPROM that queues none. -/
theorem eer_reference_noData (hq : queued s.env.ref.ee.variant 1 = 0) :
    ∃ u, seqSteps 6 (startedEer s) = .next u ∧ u.status = noDataStatus ∧ u.regs = s.regs ∧
      u.env.ref.ee.mem = s.env.ref.ee.mem ∧ u.env.ref.rtc = s.env.ref.rtc := by
  have hqueue : eerQueue s.regs s.env.ref.ee = [] := by
    rw [eerQueue, hq]
    rfl
  have hdry := dry_reference (e := { s.env with ref := eerRequested s.regs s.env.ref }) hk hqueue
  obtain ⟨y, hy, hyenv, hsteps⟩ := eer_noData (answers_eerHeader hk ho hc hr) hdry
  refine ⟨_, hsteps, hy.status_noData, hy.regs, ?_, ?_⟩ <;> rw [raiseError_env, hyenv]
  · exact (eeAddressed_frame s.env.ref.ee s.regs.eeAddrH.val s.regs.eeAddrL.val).1
  · rfl

/-- R67, R91: EEW on the reference bus stores its byte at SETTLE. -/
theorem eew_reference_completes (hv : s.env.ref.ee.variant = .normal) :
    ∃ u, seqSteps 6 (startedEew s) = .next u ∧ Ready u ∧ u.regs = s.regs ∧ u.env.kind = .reference ∧
      u.env.ref.openTxn = none ∧ u.env.ref.ee.variant = .normal ∧ u.env.ref.ee.writeCycle = none ∧
      u.env.ref.ee.mem = writeByte s.env.ref.ee.mem (eeAddress s.regs).toNat s.regs.eeData.val ∧
      u.env.ref.rtc = s.env.ref.rtc := by
  obtain ⟨h7, hcell⟩ := eeCellOf_inRange hr
  have hanswers := (answers_transaction hk ho eeId [s.regs.eeAddrH.val, s.regs.eeAddrL.val, s.regs.eeData.val]
    fun n => (deliver_ee n _ _).trans (by rw [eeTransaction_write hv hc h7])).append
      (answers_settle (by exact hk))
  obtain ⟨fvs, x, y, -, -, hy, hyenv, hsteps⟩ := (running_nil (t := startedEew s) (op := .eew) rfl rfl rfl).completes
    (by rw [frame_startedEew]; exact hanswers) (by simp) (by rw [frame_startedEew]; exact List.cons_ne_nil _ _)
  have hdone := hy.status_complete (results .eew y.rbuf)
  refine ⟨_, hsteps, ⟨by rw [hdone]; rfl, rfl⟩, hy.regs, ?_⟩
  rw [complete_env, hyenv, ← hcell]
  exact ⟨hk, rfl, hv, rfl, rfl, rfl⟩

end

/-- Settles O37: EEW stores the byte at SETTLE, and EER's queue is that byte. -/
theorem eepromWriteThenReadReturnsTheByte : Obligations.EepromWriteThenReadReturnsTheByte := by
  intro s hs hk ho hv hc hr hwf
  obtain ⟨u, hu, hready, hregs, huk, huo, huv, huc, humem, hurtc⟩ := eew_reference_completes hk ho hc hr hv
  rw [← hregs] at hr
  obtain ⟨w, hw, hdone, hwregs, hwmem, hwc, hwrtc⟩ := eer_reference_completes huk huo huc hr (by rw [huv]; rfl)
  rw [hregs, humem] at hwregs
  rw [humem] at hwmem
  have hbyte : readByte w.env.ref.ee.mem (eeAddress s.regs).toNat = s.regs.eeData.val := by
    rw [hwmem, readByte_writeByte_same _ _ hwf]
  refine ⟨startedEew s, u, startedEer u, w, execEew_started hs fun _ => hregs ▸ hr, hu, execEer_started hready fun _ => hr, hw,
    hdone, ?_, hbyte, fun a ha => ?_, hwc, hwrtc.trans hurtc⟩
  · rw [hwregs, readByte_writeByte_same _ _ hwf]
  · rw [hwmem, readByte_writeByte_other _ _ ha]

/-- Settles O38: each read command's transaction sets a pointer alone, and the device's queue decides how it ends. -/
theorem readCommandsLeaveEveryDeviceByte : Obligations.ReadCommandsLeaveEveryDeviceByte := by
  refine ⟨fun s hs hk ho => ?_, fun s hs hk ho hc hr => ?_, fun n => ⟨rfl, rfl, fun _ => rfl⟩⟩
  · obtain hq | hq : queued s.env.ref.rtc.variant 7 = 7 ∨ queued s.env.ref.rtc.variant 7 < 7 :=
      (queued_le s.env.ref.rtc.variant 7).eq_or_lt
    · obtain ⟨u, hsteps, hst, hregs, hmem, hee⟩ := rtcr_reference_completes hk ho hq
      exact ⟨startedRtcr s, u, execRtcr_started hs, hmem, hee,
        fun _ => ⟨hsteps, hst, by rw [hregs, timeRecord_timeWrites]; rfl⟩, fun hlt => absurd hq hlt.ne⟩
    · obtain ⟨u, hsteps, hst, hregs, hmem, hee⟩ := rtcr_reference_noData hk ho hq
      exact ⟨startedRtcr s, u, execRtcr_started hs, hmem, hee, fun heq => absurd heq hq.ne, fun _ => ⟨hsteps, hst, hregs⟩⟩
  · obtain hq | hq : queued s.env.ref.ee.variant 1 = 1 ∨ queued s.env.ref.ee.variant 1 = 0 :=
      (queued_le s.env.ref.ee.variant 1).eq_or_lt.imp id Nat.lt_one_iff.1
    · obtain ⟨u, hsteps, hst, hregs, hmem, -, hrtc⟩ := eer_reference_completes hk ho hc hr hq
      exact ⟨startedEer s, u, execEer_started hs fun _ => hr, hmem, hrtc, fun _ => ⟨hsteps, hst, hregs⟩,
        fun h0 => absurd (hq.symm.trans h0) (by decide)⟩
    · obtain ⟨u, hsteps, hst, hregs, hmem, hrtc⟩ := eer_reference_noData hk ho hc hr hq
      exact ⟨startedEer s, u, execEer_started hs fun _ => hr, hmem, hrtc,
        fun h1 => absurd (hq.symm.trans h1) (by decide), fun _ => ⟨hsteps, hst, hregs⟩⟩

end Sys2Proof.Machine
end
